-- ==== Sys2Proof/Word.lean ====
section
/-! DEFINITION. The cell type and the register index (00_scope.md R2, R4; 10_state.md R10). -/

namespace Sys2Proof

/-- A cell: one 8-bit unsigned value of the register file or of memory (XLEN = 8, R2, R4). -/
abbrev Byte := BitVec 8

/-- The index of one of the eight registers (NREGS = 8, R2, R10). -/
abbrev RegIdx := Fin 8

end Sys2Proof
end

