-- ==== Sys2Proof/Syntax.lean ====
section
/-! DEFINITION. The instruction set as syntax (30_encoding.md R53 to R55): one constructor of Instr for every row of
opcode_table.json. A register operand is kept as the byte that was fetched, since it is the handler and not the decoder
that checks it (R57, R75). -/

namespace Sys2Proof

/-- The five formats (R54): no operand, one register, two registers, register and immediate, two registers and immediate. -/
inductive Format where
  | Z
  | R
  | RR
  | RI
  | RRI
deriving DecidableEq, Repr

/-- The number of operand bytes of a format, the column N of R55 (R54). -/
def Format.operandCount : Format → Nat
  | .Z => 0
  | .R => 1
  | .RR => 2
  | .RI => 2
  | .RRI => 3

/-- The names of the 29 instructions, in the order of the opcode table (R55). -/
inductive Opcode where
  | nop
  | hlt
  | ldi
  | ld
  | st
  | push
  | pop
  | prn
  | pra
  | add
  | sub
  | mul
  | div
  | mod
  | cmp
  | and
  | or
  | xor
  | shl
  | shr
  | not
  | inc
  | dec
  | addi
  | call
  | ret
  | jmp
  | jeq
  | jne
deriving DecidableEq, Repr

/-- The format of each instruction (R54). -/
def Opcode.format : Opcode → Format
  | .nop => .Z
  | .hlt => .Z
  | .ldi => .RI
  | .ld => .RR
  | .st => .RR
  | .push => .R
  | .pop => .R
  | .prn => .R
  | .pra => .R
  | .add => .RR
  | .sub => .RR
  | .mul => .RR
  | .div => .RR
  | .mod => .RR
  | .cmp => .RR
  | .and => .RR
  | .or => .RR
  | .xor => .RR
  | .shl => .RR
  | .shr => .RR
  | .not => .R
  | .inc => .R
  | .dec => .R
  | .addi => .RRI
  | .call => .R
  | .ret => .Z
  | .jmp => .R
  | .jeq => .R
  | .jne => .R

/-- The self-advancing instructions, the column C of R55: the handler sets pc itself (R52, R150). -/
def Opcode.selfAdvancing : Opcode → Bool
  | .nop => false
  | .hlt => false
  | .ldi => false
  | .ld => false
  | .st => false
  | .push => false
  | .pop => false
  | .prn => false
  | .pra => false
  | .add => false
  | .sub => false
  | .mul => false
  | .div => false
  | .mod => false
  | .cmp => false
  | .and => false
  | .or => false
  | .xor => false
  | .shl => false
  | .shr => false
  | .not => false
  | .inc => false
  | .dec => false
  | .addi => false
  | .call => true
  | .ret => true
  | .jmp => true
  | .jeq => true
  | .jne => true

/-- An instruction with its operand bytes, in the operand order of R54. -/
inductive Instr where
  /-- NOP: no operation (R78). -/
  | nop
  /-- HLT: halt (R79). -/
  | hlt
  /-- LDI: load an immediate into a register (R90). -/
  | ldi (reg imm : Byte)
  /-- LD: load a register from the address in a register (R91). -/
  | ld (dst src : Byte)
  /-- ST: store a register at the address in a register (R92). -/
  | st (addr val : Byte)
  /-- PUSH: push a register (R100). -/
  | push (reg : Byte)
  /-- POP: pop into a register (R101). -/
  | pop (reg : Byte)
  /-- PRN: print a register as a decimal number (R110). -/
  | prn (reg : Byte)
  /-- PRA: print a register as a character (R111). -/
  | pra (reg : Byte)
  /-- ADD: add (R121). -/
  | add (a b : Byte)
  /-- SUB: subtract (R122). -/
  | sub (a b : Byte)
  /-- MUL: multiply (R123). -/
  | mul (a b : Byte)
  /-- DIV: unsigned divide (R124). -/
  | div (a b : Byte)
  /-- MOD: unsigned remainder (R125). -/
  | mod (a b : Byte)
  /-- CMP: compare and set the flags (R126). -/
  | cmp (a b : Byte)
  /-- AND: bitwise and (R127). -/
  | and (a b : Byte)
  /-- OR: bitwise or (R128). -/
  | or (a b : Byte)
  /-- XOR: bitwise exclusive or (R129). -/
  | xor (a b : Byte)
  /-- SHL: shift left (R131). -/
  | shl (a b : Byte)
  /-- SHR: logical shift right (R132). -/
  | shr (a b : Byte)
  /-- NOT: bitwise complement (R130). -/
  | not (a : Byte)
  /-- INC: increment (R133). -/
  | inc (reg : Byte)
  /-- DEC: decrement (R134). -/
  | dec (reg : Byte)
  /-- ADDI: add an immediate (R135). -/
  | addi (dst src imm : Byte)
  /-- CALL: call the subroutine at the address in a register (R151). -/
  | call (reg : Byte)
  /-- RET: return from subroutine (R152). -/
  | ret
  /-- JMP: jump to the address in a register (R153). -/
  | jmp (reg : Byte)
  /-- JEQ: jump if equal (R154). -/
  | jeq (reg : Byte)
  /-- JNE: jump if not equal (R155). -/
  | jne (reg : Byte)
deriving DecidableEq, Repr

/-- Which row of the opcode table an instruction is. -/
def Instr.opcode : Instr → Opcode
  | .nop => .nop
  | .hlt => .hlt
  | .ldi _ _ => .ldi
  | .ld _ _ => .ld
  | .st _ _ => .st
  | .push _ => .push
  | .pop _ => .pop
  | .prn _ => .prn
  | .pra _ => .pra
  | .add _ _ => .add
  | .sub _ _ => .sub
  | .mul _ _ => .mul
  | .div _ _ => .div
  | .mod _ _ => .mod
  | .cmp _ _ => .cmp
  | .and _ _ => .and
  | .or _ _ => .or
  | .xor _ _ => .xor
  | .shl _ _ => .shl
  | .shr _ _ => .shr
  | .not _ => .not
  | .inc _ => .inc
  | .dec _ => .dec
  | .addi _ _ _ => .addi
  | .call _ => .call
  | .ret => .ret
  | .jmp _ => .jmp
  | .jeq _ => .jeq
  | .jne _ => .jne

/-- The operand bytes of an instruction, byte 1 first (R54). -/
def Instr.operands : Instr → List Byte
  | .nop => []
  | .hlt => []
  | .ldi reg imm => [reg, imm]
  | .ld dst src => [dst, src]
  | .st addr val => [addr, val]
  | .push reg => [reg]
  | .pop reg => [reg]
  | .prn reg => [reg]
  | .pra reg => [reg]
  | .add a b => [a, b]
  | .sub a b => [a, b]
  | .mul a b => [a, b]
  | .div a b => [a, b]
  | .mod a b => [a, b]
  | .cmp a b => [a, b]
  | .and a b => [a, b]
  | .or a b => [a, b]
  | .xor a b => [a, b]
  | .shl a b => [a, b]
  | .shr a b => [a, b]
  | .not a => [a]
  | .inc reg => [reg]
  | .dec reg => [reg]
  | .addi dst src imm => [dst, src, imm]
  | .call reg => [reg]
  | .ret => []
  | .jmp reg => [reg]
  | .jeq reg => [reg]
  | .jne reg => [reg]

end Sys2Proof
end

