-- ==== Sys2Proof/WellFormed.lean ====
section
/-! DEFINITION. Well-formedness of an instruction: every operand byte the format uses as a register index is 0 to 7
(30_encoding.md R53, R57). It is the only check there is: an immediate may be any byte. -/

namespace Sys2Proof

/-- The operand bytes used as register indices, in operand order (R54). -/
def Instr.registerOperands : Instr → List Byte
  | .nop => []
  | .hlt => []
  | .ldi reg _ => [reg]
  | .ld dst src => [dst, src]
  | .st addr val => [addr, val]
  | .push reg => [reg]
  | .pop reg => [reg]
  | .prn reg => [reg]
  | .pra reg => [reg]
  | .add a b => [a, b]
  | .sub a b => [a, b]
  | .mul a b => [a, b]
  | .div a b => [a, b]
  | .mod a b => [a, b]
  | .cmp a b => [a, b]
  | .and a b => [a, b]
  | .or a b => [a, b]
  | .xor a b => [a, b]
  | .shl a b => [a, b]
  | .shr a b => [a, b]
  | .not a => [a]
  | .inc reg => [reg]
  | .dec reg => [reg]
  | .addi dst src _ => [dst, src]
  | .call reg => [reg]
  | .ret => []
  | .jmp reg => [reg]
  | .jeq reg => [reg]
  | .jne reg => [reg]

/-- What is wrong with an ill-formed instruction, by name. -/
inductive IllFormed where
  /-- A register operand byte above 7. -/
  | registerOperand (b : Byte)
deriving DecidableEq, Repr

/-- The first register operand byte, in operand order, that is no register index (R57, R75). -/
def Instr.badRegister (i : Instr) : Option Byte := i.registerOperands.find? fun b => decide (7 < b.toNat)

/-- The check, which names what it refuses. -/
def Instr.check (i : Instr) : Except IllFormed Unit :=
  match i.badRegister with
  | none => .ok ()
  | some b => .error (.registerOperand b)

/-- An instruction whose register operands are all 0 to 7 (R53, R57). -/
abbrev Instr.WellFormed (i : Instr) : Prop := ∀ b ∈ i.registerOperands, b.toNat ≤ 7

end Sys2Proof
end

