-- ==== Sys2Proof/Decode.lean ====
section
/-! DEFINITION. The opcode table (30_encoding.md R55), the decoder (R52, 40_execution_cycle.md R72, R74) and, after it, the
encoder. Decoding is total on any bytes and rejects an unassigned opcode byte by name. Everything is written for an
arbitrary opcode assignment first (the parameter OPC of 00_scope.md R2) and then taken at the table of R55. -/

namespace Sys2Proof

/-- The opcode assignment OPC of R55 (decision D3, PRESUMED, log 3; ADDI's value is decision D4, log 4). -/
def opcodeByte : Opcode → Byte
  | .nop => 0x00#8
  | .hlt => 0x01#8
  | .ldi => 0x82#8
  | .ld => 0x83#8
  | .st => 0x84#8
  | .push => 0x45#8
  | .pop => 0x46#8
  | .prn => 0x47#8
  | .pra => 0x48#8
  | .add => 0xA0#8
  | .sub => 0xA1#8
  | .mul => 0xA2#8
  | .div => 0xA3#8
  | .mod => 0xA4#8
  | .cmp => 0xA7#8
  | .and => 0xA8#8
  | .or => 0xAA#8
  | .xor => 0xAB#8
  | .shl => 0xAC#8
  | .shr => 0xAD#8
  | .not => 0x69#8
  | .inc => 0x65#8
  | .dec => 0x66#8
  | .addi => 0xE0#8
  | .call => 0x50#8
  | .ret => 0x11#8
  | .jmp => 0x54#8
  | .jeq => 0x55#8
  | .jne => 0x56#8

/-- The rows of the table in its order (R55). -/
def Opcode.all : List Opcode :=
  [.nop, .hlt, .ldi, .ld, .st, .push, .pop, .prn, .pra] ++
  [.add, .sub, .mul, .div, .mod, .cmp, .and, .or, .xor, .shl, .shr, .not, .inc, .dec, .addi] ++
  [.call, .ret, .jmp, .jeq, .jne]

/-- The field N = op[7:6]: how many operand bytes follow (R51, R52). -/
def operandCount (op : Byte) : Nat := (op >>> 6 &&& 0b11#8).toNat

/-- The decoder's first output: the instruction length in bytes, the opcode byte included (R52, R72). -/
def instrLength (op : Byte) : Nat := operandCount op + 1

/-- The decoder's second output, C = op[4]: the handler sets pc itself and the loop does not advance it (R52, R72). -/
def selfAdvances (op : Byte) : Bool := (op >>> 4 &&& 0b1#8) == 1#8

/-- The structural constraint on an opcode assignment (R52) together with distinctness (R2): N is the operand count of the
instruction's format, C is set exactly for the self-advancing instructions, and no two instructions share a byte. -/
structure LegalAssignment (opc : Opcode → Byte) : Prop where
  count : ∀ o, operandCount (opc o) = o.format.operandCount
  advance : ∀ o, selfAdvances (opc o) = o.selfAdvancing
  distinct : ∀ o o', opc o = opc o' → o = o'

/-- The dispatcher's lookup under an assignment: the key is the full opcode byte (R74). -/
def lookupIn (opc : Opcode → Byte) (op : Byte) : Option Opcode := Opcode.all.find? fun o => opc o == op

/-- The dispatcher's lookup (R55, R74). -/
def lookup (op : Byte) : Option Opcode := lookupIn opcodeByte op

/-- The bytes one cycle fetches: the opcode and the operand slots (40_execution_cycle.md R71, R73). `opc` is used by the
one three-operand instruction only. -/
structure Window where
  op : Byte
  opa : Byte
  opb : Byte
  opc : Byte
deriving DecidableEq, Repr

/-- The bytes of a window at ascending addresses (R35, R50). -/
def Window.bytes (w : Window) : List Byte := [w.op, w.opa, w.opb, w.opc]

/-- The window that begins with the given bytes; a missing byte is 0. -/
def Window.ofList (bs : List Byte) : Window where
  op := bs.getD 0 0#8
  opa := bs.getD 1 0#8
  opb := bs.getD 2 0#8
  opc := bs.getD 3 0#8

/-- The instruction of an opcode with the operand slots it uses; the slots it does not use are ignored (R54, R73, R74). -/
def Opcode.build (o : Opcode) (opa opb opc : Byte) : Instr :=
  match o with
  | .nop => .nop
  | .hlt => .hlt
  | .ldi => .ldi opa opb
  | .ld => .ld opa opb
  | .st => .st opa opb
  | .push => .push opa
  | .pop => .pop opa
  | .prn => .prn opa
  | .pra => .pra opa
  | .add => .add opa opb
  | .sub => .sub opa opb
  | .mul => .mul opa opb
  | .div => .div opa opb
  | .mod => .mod opa opb
  | .cmp => .cmp opa opb
  | .and => .and opa opb
  | .or => .or opa opb
  | .xor => .xor opa opb
  | .shl => .shl opa opb
  | .shr => .shr opa opb
  | .not => .not opa
  | .inc => .inc opa
  | .dec => .dec opa
  | .addi => .addi opa opb opc
  | .call => .call opa
  | .ret => .ret
  | .jmp => .jmp opa
  | .jeq => .jeq opa
  | .jne => .jne opa

/-- Why the decoder refuses. -/
inductive DecodeError where
  /-- The opcode byte is none of the 29 assigned values (R56, R74). -/
  | unknownOpcode (op : Byte)
deriving DecidableEq, Repr

/-- Decoding under an opcode assignment (R74). -/
def decodeIn (opc : Opcode → Byte) (w : Window) : Except DecodeError Instr :=
  match lookupIn opc w.op with
  | some o => .ok (o.build w.opa w.opb w.opc)
  | none => .error (.unknownOpcode w.op)

/-- Decoding: the opcode table of R55. -/
def decode (w : Window) : Except DecodeError Instr := decodeIn opcodeByte w

/-- Encoding under an opcode assignment: the opcode byte, then the operand bytes (R50, R54). -/
def encodeIn (opc : Opcode → Byte) (i : Instr) : List Byte := opc i.opcode :: i.operands

/-- The bytes of an instruction, at ascending addresses (R50, R54, R55). -/
def encode (i : Instr) : List Byte := encodeIn opcodeByte i

/-- The four bytes of an instruction given as a number: bits 7..0 are the first byte, bits 15..8 the second and so on; bits
at and above `nbits` are 0. -/
def tableWordWindow (nbits w : Nat) : Window :=
  let v := w % 2 ^ nbits
  { op := BitVec.ofNat 8 v, opa := BitVec.ofNat 8 (v / 2 ^ 8),
    opb := BitVec.ofNat 8 (v / 2 ^ 16), opc := BitVec.ofNat 8 (v / 2 ^ 24) }

/-- The instruction the decoder reads from a word of the opcode table. -/
def decodeTableWord (nbits w : Nat) : Option Instr :=
  match decode (tableWordWindow nbits w) with
  | .ok i => some i
  | .error _ => none

end Sys2Proof
end

