-- ==== Sys2Proof/Config.lean ====
section
/-! DEFINITION. The parameters of 00_scope.md R2 that two legal machines may differ in, and the fixed ones that need a
name. XLEN, NREGS and PC_WIDTH are the types Byte and RegIdx; the opcode assignment OPC is in Decode.lean. -/

namespace Sys2Proof

/-- MEM_SIZE: 255 cells by the source, 256 by the scope note; both values are legal (R2, R30; log 1). -/
inductive MemSize where
  | cells255
  | cells256
deriving DecidableEq, Repr

/-- The number of memory cells; valid addresses are 0 to one less (R2, R30). -/
def MemSize.toNat : MemSize → Nat
  | .cells255 => 255
  | .cells256 => 256

/-- The parameters a machine is built with. No instruction reads or writes them as data (R2). -/
structure Params where
  /-- MEM_SIZE. -/
  memSize : MemSize
  /-- SP_INIT: the value of register 7 after reset. -/
  spInit : Byte
deriving DecidableEq, Repr

/-- The legal values of the parameters: SP_INIT is in 1 to MEM_SIZE-1 (R2). -/
abbrev Params.Legal (p : Params) : Prop := 1 ≤ p.spInit.toNat ∧ p.spInit.toNat < p.memSize.toNat

/-- SP: the index of the register used as stack pointer (R2, R12). -/
def spIdx : RegIdx := 7

/-- FL_E: the slot of the equal flag (R2, R17; decision D12, log 11). -/
def Config.flE : Fin 8 := 0

/-- FL_G: the slot of the greater-than flag (R2, R17; decision D12, log 11). -/
def Config.flG : Fin 8 := 1

/-- FL_L: the slot of the less-than flag (R2, R17; decision D12, log 11). -/
def Config.flL : Fin 8 := 2

/-- LINE_BREAK: the character PRN's rendering ends with (R2, R113; decision D16, log 15). -/
def Config.lineBreak : Char := '\n'

end Sys2Proof
end

