-- ==== Sys2Proof/Machine/Defaults.lean ====
section
/-! DEFINITION. The values of the parameters that the machine of `State.reset` is built with. -/

namespace Sys2Proof

/-- The values the spec chooses: MEM_SIZE = 255 (decision D1, log 1) and SP_INIT = 0xF4 (decision D2, PRESUMED, log 2). -/
def Params.default : Params where
  memSize := .cells255
  spInit := 0xF4#8

end Sys2Proof
end

