-- ==== Sys2Proof/Machine/State.lean ====
section
/-! DEFINITION. The state of the machine, `(x[0..7], pc, FL, M, run, out)` of 10_state.md, with the parameters the machine
was built with; the reasons a step can stop; and the state after reset (R25). All of it is plain data. -/

namespace Sys2Proof.Machine

/-- FL: the three flags that the 8-slot flag vector stores (R17; the other slots are in Flags.lean; log 11). -/
structure Flags where
  /-- FL.E, equal. -/
  e : Bool
  /-- FL.G, greater-than. -/
  g : Bool
  /-- FL.L, less-than. -/
  l : Bool
deriving DecidableEq, Repr

/-- Why the machine is halted (R20, 60_exceptions.md R166). `hlt` is the normal end of a run, the others are errors. -/
inductive HaltCause where
  /-- HLT was executed (R79). -/
  | hlt
  /-- The fetched opcode byte is not assigned (R167). -/
  | unknownOpcode (op : Byte)
  /-- DIV or MOD, whose opcode byte is recorded, with a divisor of 0 (R168). -/
  | divideByZero (op : Byte)
  /-- An access at or above MEM_SIZE, or a pc advance past 255 (R169). -/
  | addressOutOfRange (addr : Nat)
  /-- A register operand byte above 7 (R171). -/
  | invalidRegister (b : Byte)
deriving DecidableEq, Repr

/-- The run state (R20). -/
inductive RunState where
  | ready
  | running
  | halted (cause : HaltCause)
deriving DecidableEq, Repr

/-- One output event (R19): the value is the register's. -/
inductive OutEvent where
  /-- Dec(v): PRN. -/
  | dec (v : Byte)
  /-- Chr(v): PRA. -/
  | chr (v : Byte)
deriving DecidableEq, Repr

/-- Memory: the cells whose byte is not the one an unlisted address reads as, by strictly rising address. -/
abbrev Memory := List Host.Cell

/-- The whole state of the machine. -/
structure State where
  /-- MEM_SIZE and SP_INIT (R2): fixed when the machine is built, kept by reset, written by nothing. -/
  params : Params
  /-- x[0..7] (R10); entry 7 is the stack pointer (R12). -/
  regs : Vector Byte 8
  /-- The program counter (R14, R15). -/
  pc : Byte
  /-- The flags register (R17). -/
  fl : Flags
  /-- M[0..MEM_SIZE-1] (R24). -/
  mem : Memory
  /-- The run state (R20). -/
  run : RunState
  /-- The output history, oldest event first (R19). -/
  out : List OutEvent
deriving DecidableEq, Repr

/-- Why a step has no next state. A fatal error of the machine is not one of these: raising it is a step, whose next state
is Halted (R170; log 6). -/
inductive Fault where
  /-- Raised by `step` in Ready: nothing executes until the host's start action (R70). Safe: the model stops (log 5). -/
  | notStarted
  /-- Raised by `step` in Halted, with the cause: nothing executes ever again (R20, R70). Safe: the model stops (log 5). -/
  | halted (cause : HaltCause)
deriving DecidableEq, Repr

/-- What is turned away. -/
inductive Refusal where
  /-- Raised by an arm of `exec` that has no meaning yet; no arm does now. Safe. -/
  | notModelled (mnemonic : String)
  /-- Raised by the host's load action outside Ready (R192, R194). Safe: no state results (log 16). -/
  | loadNotReady
  /-- Raised by the host's load action for a program longer than MEM_SIZE or a byte address at or above it (R192). Safe:
  no state results (log 16). -/
  | loadOutsideMemory (addr : Nat)
  /-- Raised by the host's start action outside Ready (R80). Safe: no state results (log 16). -/
  | startNotReady
deriving DecidableEq, Repr

/-- The state after reset of a machine with parameters `p` (R25): registers 0 to 6 zero, register 7 SP_INIT, pc 0, all
flags false, every cell 0 (none listed), Ready, no output. -/
def State.resetOf (p : Params) : State where
  params := p
  regs := #v[0#8, 0#8, 0#8, 0#8, 0#8, 0#8, 0#8, p.spInit]
  pc := 0#8
  fl := { e := false, g := false, l := false }
  mem := []
  run := .ready
  out := []

/-- The machine right after reset, with the parameters the spec chooses (R2, R25; log 1, log 2, log 11). -/
def State.reset : State := State.resetOf Params.default

end Sys2Proof.Machine
end

