-- ==== Sys2Proof/Machine/Ops.lean ====
section
/-! DEFINITION. The named operations over memory, registers, output and the program counter, and `raise`, the machine's one
way of taking an exception (60_exceptions.md R170). There is no return from an exception beside it: Halted is terminal and
nothing is saved (R170, R174). -/

namespace Sys2Proof.Machine

/-! ### Numbers -/

/-- trunc8(v) = v mod 256 (00_scope.md section 5, R4). -/
def trunc8 (v : Nat) : Byte := BitVec.ofNat 8 v

/-- `v mod 256` of an integer that may be negative (R137). -/
def trunc8Int (v : Int) : Byte := BitVec.ofInt 8 v

/-! ### Memory -/

/-- What a cell that nothing has written reads as: memory is zero-filled at reset (R25, R37). -/
def Memory.unlisted : Byte := 0#8

/-- The byte in cell `a`. -/
def Memory.read : Memory → Nat → Byte
  | [], _ => Memory.unlisted
  | (k, v) :: m, a => if k = a then v else Memory.read m a

/-- A cell list in which `a` holds `v`: a byte that reads as unlisted is not listed. -/
def Memory.cons (a : Nat) (v : Byte) (m : Memory) : Memory := if v = Memory.unlisted then m else (a, v) :: m

/-- Memory with `v` in cell `a`, in canonical form. -/
def Memory.write : Memory → Nat → Byte → Memory
  | [], a, v => Memory.cons a v []
  | (k, u) :: m, a, v =>
    if a < k then Memory.cons a v ((k, u) :: m)
    else if a = k then Memory.cons a v m
    else (k, u) :: Memory.write m a v

/-- Canonical form from address `lo` on: addresses strictly rising, no listed byte that reads as unlisted. -/
def Memory.wfFrom : Nat → Memory → Bool
  | _, [] => true
  | lo, (k, v) :: m => decide (lo ≤ k) && decide (v ≠ Memory.unlisted) && Memory.wfFrom (k + 1) m

/-- The canonical form of memory: equal memories are equal lists. -/
def Memory.wf (m : Memory) : Bool := Memory.wfFrom 0 m

/-- The whole of memory replaced. -/
def State.setMem (s : State) (m : Memory) : State := { s with mem := m }

/-- MemRead(addr, 1) (R31). -/
def memRead (s : State) (addr : Nat) : Except HaltCause Byte :=
  if s.params.memSize.toNat ≤ addr then .error (.addressOutOfRange addr) else .ok (s.mem.read addr)

/-- MemWrite(addr, 1, v) (R32): exactly one cell changes. -/
def memWrite (s : State) (addr : Nat) (v : Byte) : Except HaltCause State :=
  if s.params.memSize.toNat ≤ addr then .error (.addressOutOfRange addr)
  else .ok (s.setMem (s.mem.write addr v))

/-! ### Registers, program counter, output -/

/-- x[i] (R10). No register is hardwired (R11). -/
def State.reg (s : State) (i : RegIdx) : Byte := s.regs[i]

/-- x[i] <- v (R10, R11). -/
def State.setReg (s : State) (i : RegIdx) (v : Byte) : State := { s with regs := s.regs.set i v }

/-- pc <- t (R14). -/
def State.setPc (s : State) (t : Byte) : State := { s with pc := t }

/-- emit e: append to the output history (R19, R112). -/
def State.emit (s : State) (e : OutEvent) : State := { s with out := s.out ++ [e] }

/-- run <- r (R20). -/
def State.setRun (s : State) (r : RunState) : State := { s with run := r }

/-! ### Taking an exception -/

/-- raise cause (R170): run <- Halted(cause), and nothing else: what the cycle has done before stands, pc is not advanced,
nothing is saved (R173; log 6). -/
def raise (c : HaltCause) (s : State) : State := s.setRun (.halted c)

/-- Go on with the result of a check or an access, or raise its error in the state as it is at that point (R170, R173). -/
def orRaise {α : Type} (s : State) (r : Except HaltCause α) (k : α → State) : State :=
  match r with
  | .ok a => k a
  | .error c => raise c s

/-- pc <- pc + len, the loop's advance after a handler that does not set pc itself (R76): no wrap, an advance past 255
raises AddressOutOfRange. -/
def advance (len : Nat) (s : State) : State :=
  if s.pc.toNat + len ≤ 255 then s.setPc (trunc8 (s.pc.toNat + len))
  else raise (.addressOutOfRange (s.pc.toNat + len)) s

/-! ### The stack (42_stack.md R102): full, descending, addressed by register 7 -/

/-- The value of the stack pointer after a decrement, modulo 256. -/
def State.spDown (s : State) : Byte := trunc8Int ((s.reg spIdx).toNat - 1)

/-- The value of the stack pointer after an increment, modulo 256. -/
def State.spUp (s : State) : Byte := trunc8 ((s.reg spIdx).toNat + 1)

/-- Push: decrement x[7], then write at the new x[7] the byte `v` takes from the state after the decrement. The decrement
stands when the write raises (R100, R151, R173). -/
def stackPush (v : State → Byte) (s : State) (k : State → State) : State :=
  let s1 := s.setReg spIdx s.spDown
  orRaise s1 (memWrite s1 (s1.reg spIdx).toNat (v s1)) k

/-- The byte on top of the stack, at x[7] (R101, R152). -/
def stackTop (s : State) : Except HaltCause Byte := memRead s (s.reg spIdx).toNat

end Sys2Proof.Machine
end

