-- ==== Sys2Proof/Machine/Flags.lean ====
section
/-! DEFINITION. The one flag computation of the machine, CMP's (44_alu.md R126), and the flag register seen as the 8-slot
vector and as a byte (10_state.md R17). No instruction reads or writes the vector or the byte. -/

namespace Sys2Proof.Machine

/-- The flags of a comparison of unsigned values: all three are written (R126; decision D13). -/
def compareFlags (x y : Byte) : Flags where
  e := decide (x.toNat = y.toNat)
  g := decide (x.toNat > y.toNat)
  l := decide (x.toNat < y.toNat)

/-- FL <- f. -/
def State.setFlags (s : State) (f : Flags) : State := { s with fl := f }

/-- The 8-slot flag vector: the three flags in their slots, false in the other five (R17; decision D12, log 11). -/
def Flags.slot (f : Flags) (i : Fin 8) : Bool :=
  if i = Config.flE then f.e else if i = Config.flG then f.g else if i = Config.flL then f.l else false

/-- The vector read as a byte, slot i in bit i: `0b00000LGE` (R17). -/
def Flags.toByte (f : Flags) : Byte :=
  trunc8 ((List.finRange 8).foldl (fun n i => if f.slot i then n + 2 ^ i.val else n) 0)

end Sys2Proof.Machine
end

