-- ==== Sys2Proof/Machine/Operands.lean ====
section
/-! DEFINITION. The operand forms (30_encoding.md R53, R54, R57; 40_execution_cycle.md R75). There are two operand kinds:
a register operand, checked by `regIndex` before the instruction changes anything, and an immediate, used as it stands. -/

namespace Sys2Proof.Machine

/-- reg(b): a register operand byte as a register index; above 7 it raises InvalidRegister and bits 7 to 3 are not ignored
(R57; decision D10, log 13). -/
def regIndex (b : Byte) : Except HaltCause RegIdx :=
  if h : b.toNat < 8 then .ok ⟨b.toNat, h⟩ else .error (.invalidRegister b)

/-- The check of the formats with one register operand (R75). -/
def withReg (a : Byte) (s : State) (k : RegIdx → State) : State := orRaise s (regIndex a) k

/-- The check of the formats with two register operands, in operand order: both before any effect (R75, R172). -/
def withRegs (a b : Byte) (s : State) (k : RegIdx → RegIdx → State) : State :=
  orRaise s (regIndex a) fun ra => orRaise s (regIndex b) fun rb => k ra rb

end Sys2Proof.Machine
end

