-- ==== Sys2Proof/Machine/Alu.lean ====
section
/-! DEFINITION. The arithmetic/logic unit (44_alu.md): the result functions, on exact integers reduced modulo 256 at the end
(R120, R137), the two shapes of an ALU instruction, and one meaning for each. No one of them but CMP touches the flags
(R136). -/

namespace Sys2Proof.Machine

/-! ### Result functions -/

/-- (x + y) mod 256 (R121). -/
def aluAdd (x y : Byte) : Byte := trunc8 (x.toNat + y.toNat)

/-- (x - y) mod 256 (R122; decision D6, log 12). -/
def aluSub (x y : Byte) : Byte := trunc8Int (x.toNat - y.toNat)

/-- (x * y) mod 256 (R123). -/
def aluMul (x y : Byte) : Byte := trunc8 (x.toNat * y.toNat)

/-- The unsigned floor quotient, for a divisor above 0 (R124; decision D6, log 12). -/
def aluDiv (x y : Byte) : Byte := trunc8 (x.toNat / y.toNat)

/-- The unsigned remainder, for a divisor above 0 (R125). -/
def aluMod (x y : Byte) : Byte := trunc8 (x.toNat % y.toNat)

/-- x & y (R127). -/
def aluAnd (x y : Byte) : Byte := x &&& y

/-- x | y (R128). -/
def aluOr (x y : Byte) : Byte := x ||| y

/-- x ^ y (R129). -/
def aluXor (x y : Byte) : Byte := x ^^^ y

/-- x ^ 0xFF, the complement of the cell's 8 bits (R130; decision D7, log 12). -/
def aluNot (x : Byte) : Byte := x ^^^ 0xFF#8

/-- (x * 2^y) mod 256; the count is the whole byte (R131; decision D17, log 12). -/
def aluShl (x y : Byte) : Byte := trunc8 (x.toNat * 2 ^ y.toNat)

/-- x div 2^y; the count is the whole byte (R132; decision D17, log 12). -/
def aluShr (x y : Byte) : Byte := trunc8 (x.toNat / 2 ^ y.toNat)

/-! ### Shapes -/

/-- x[a] <- f(x[a], x[b]), 3 bytes (R120). -/
def aluTwo (f : Byte → Byte → Byte) (a b : Byte) (s : State) : State :=
  withRegs a b s fun ra rb => advance 3 (s.setReg ra (f (s.reg ra) (s.reg rb)))

/-- The same behind the zero check of DIV and MOD, which records the instruction's opcode byte (R124, R125, R168). -/
def aluDivide (op : Byte) (f : Byte → Byte → Byte) (a b : Byte) (s : State) : State :=
  withRegs a b s fun ra rb =>
    if s.reg rb = 0#8 then raise (.divideByZero op) s
    else advance 3 (s.setReg ra (f (s.reg ra) (s.reg rb)))

/-- x[a] <- f(x[a]), 2 bytes (R120). -/
def aluOne (f : Byte → Byte) (a : Byte) (s : State) : State :=
  withReg a s fun ra => advance 2 (s.setReg ra (f (s.reg ra)))

/-! ### Meanings -/

/-- ADD (R121). -/
def execAdd (a b : Byte) (s : State) : Host.Outcome State Fault Refusal := .next (aluTwo aluAdd a b s)

/-- SUB (R122). -/
def execSub (a b : Byte) (s : State) : Host.Outcome State Fault Refusal := .next (aluTwo aluSub a b s)

/-- MUL (R123). -/
def execMul (a b : Byte) (s : State) : Host.Outcome State Fault Refusal := .next (aluTwo aluMul a b s)

/-- DIV (R124). -/
def execDiv (a b : Byte) (s : State) : Host.Outcome State Fault Refusal :=
  .next (aluDivide (opcodeByte .div) aluDiv a b s)

/-- MOD (R125). -/
def execMod (a b : Byte) (s : State) : Host.Outcome State Fault Refusal :=
  .next (aluDivide (opcodeByte .mod) aluMod a b s)

/-- CMP: writes the three flags and no register (R126). -/
def execCmp (a b : Byte) (s : State) : Host.Outcome State Fault Refusal :=
  .next (withRegs a b s fun ra rb => advance 3 (s.setFlags (compareFlags (s.reg ra) (s.reg rb))))

/-- AND (R127). -/
def execAnd (a b : Byte) (s : State) : Host.Outcome State Fault Refusal := .next (aluTwo aluAnd a b s)

/-- OR (R128). -/
def execOr (a b : Byte) (s : State) : Host.Outcome State Fault Refusal := .next (aluTwo aluOr a b s)

/-- XOR (R129). -/
def execXor (a b : Byte) (s : State) : Host.Outcome State Fault Refusal := .next (aluTwo aluXor a b s)

/-- SHL (R131). -/
def execShl (a b : Byte) (s : State) : Host.Outcome State Fault Refusal := .next (aluTwo aluShl a b s)

/-- SHR (R132). -/
def execShr (a b : Byte) (s : State) : Host.Outcome State Fault Refusal := .next (aluTwo aluShr a b s)

/-- NOT (R130). -/
def execNot (a : Byte) (s : State) : Host.Outcome State Fault Refusal := .next (aluOne aluNot a s)

/-- INC: x[reg] <- (x[reg] + 1) mod 256 (R133). -/
def execInc (reg : Byte) (s : State) : Host.Outcome State Fault Refusal :=
  .next (aluOne (fun x => aluAdd x 1#8) reg s)

/-- DEC: x[reg] <- (x[reg] - 1) mod 256 (R134). -/
def execDec (reg : Byte) (s : State) : Host.Outcome State Fault Refusal :=
  .next (aluOne (fun x => aluSub x 1#8) reg s)

/-- ADDI: x[dst] <- (x[src] + imm) mod 256, 4 bytes (R135). -/
def execAddi (dst src imm : Byte) (s : State) : Host.Outcome State Fault Refusal :=
  .next (withRegs dst src s fun d r => advance 4 (s.setReg d (aluAdd (s.reg r) imm)))

end Sys2Proof.Machine
end

