-- ==== Sys2Proof/Machine/Control.lean ====
section
/-! DEFINITION. CALL, RET, JMP, JEQ, JNE (45_control_flow.md): each sets pc itself on every path and the loop adds nothing
(R150). A target at or above MEM_SIZE is written to pc; it is the next opcode fetch that raises (R150). -/

namespace Sys2Proof.Machine

/-- CALL: push pc + 2, then pc <- x[reg], read after the push, so CALL R7 jumps to the decremented stack pointer (R151;
decision D23, log 14). In a cycle pc + 2 is at most 255, because address pc + 2 has been fetched (R151; log 9). -/
def execCall (reg : Byte) (s : State) : Host.Outcome State Fault Refusal :=
  .next (withReg reg s fun r => stackPush (fun _ => trunc8 (s.pc.toNat + 2)) s fun t => t.setPc (t.reg r))

/-- RET: pop the top of the stack into pc (R152). -/
def execRet (s : State) : Host.Outcome State Fault Refusal :=
  .next (orRaise s (stackTop s) fun t => (s.setReg spIdx s.spUp).setPc t)

/-- JMP: pc <- x[reg] (R153). -/
def execJmp (reg : Byte) (s : State) : Host.Outcome State Fault Refusal :=
  .next (withReg reg s fun r => s.setPc (s.reg r))

/-- A conditional jump: to x[reg], or on by the instruction's own length, 2 (R154, R155; log 9). -/
def jumpIf (taken : Bool) (reg : Byte) (s : State) : State :=
  withReg reg s fun r => if taken then s.setPc (s.reg r) else advance 2 s

/-- JEQ: taken if FL.E is set (R154). -/
def execJeq (reg : Byte) (s : State) : Host.Outcome State Fault Refusal := .next (jumpIf s.fl.e reg s)

/-- JNE: taken if FL.E is clear (R155). -/
def execJne (reg : Byte) (s : State) : Host.Outcome State Fault Refusal := .next (jumpIf (!s.fl.e) reg s)

end Sys2Proof.Machine
end

