-- ==== Sys2Proof/Machine/LoadStore.lean ====
section
/-! DEFINITION. LDI, LD, ST (41_load_store.md). The one data addressing mode is register indirect: the address is the whole
8-bit content of the named register. -/

namespace Sys2Proof.Machine

/-- LDI: x[reg] <- imm (R90). -/
def execLdi (reg imm : Byte) (s : State) : Host.Outcome State Fault Refusal :=
  .next (withReg reg s fun r => advance 3 (s.setReg r imm))

/-- LD: x[dst] <- M[x[src]]; the address is read before the register is written (R91). -/
def execLd (dst src : Byte) (s : State) : Host.Outcome State Fault Refusal :=
  .next (withRegs dst src s fun d r => orRaise s (memRead s (s.reg r).toNat) fun v => advance 3 (s.setReg d v))

/-- ST: M[x[addr]] <- x[val] (R92). -/
def execSt (addr val : Byte) (s : State) : Host.Outcome State Fault Refusal :=
  .next (withRegs addr val s fun a b => orRaise s (memWrite s (s.reg a).toNat (s.reg b)) fun t => advance 3 t)

end Sys2Proof.Machine
end

