-- ==== Sys2Proof/Machine/Output.lean ====
section
/-! DEFINITION. PRN and PRA (43_output.md), and the text of an output event (R113). -/

namespace Sys2Proof.Machine

/-- PRN: emit Dec(x[reg]) (R110). -/
def execPrn (reg : Byte) (s : State) : Host.Outcome State Fault Refusal :=
  .next (withReg reg s fun r => advance 2 (s.emit (.dec (s.reg r))))

/-- PRA: emit Chr(x[reg]) (R111). -/
def execPra (reg : Byte) (s : State) : Host.Outcome State Fault Refusal :=
  .next (withReg reg s fun r => advance 2 (s.emit (.chr (s.reg r))))

/-- The digit character of a number below 10. -/
def digitChar (n : Nat) : Char := Char.ofNat ('0'.toNat + n)

/-- The decimal digits of a byte, most significant first, with no leading zero (R113). -/
def decimalDigits (v : Byte) : List Nat :=
  if v.toNat < 10 then [v.toNat]
  else if v.toNat < 100 then [v.toNat / 10, v.toNat % 10]
  else [v.toNat / 100, v.toNat / 10 % 10, v.toNat % 10]

/-- The characters the host shows for an event (R113; decisions D16 and D24, log 15): the decimal digits and a line break,
or the one character with that code point. -/
def OutEvent.render : OutEvent → List Char
  | .dec v => (decimalDigits v).map digitChar ++ [Config.lineBreak]
  | .chr v => [Char.ofNat v.toNat]

end Sys2Proof.Machine
end

