-- ==== Sys2Proof/Machine/Stack.lean ====
section
/-! DEFINITION. PUSH and POP (42_stack.md). -/

namespace Sys2Proof.Machine

/-- PUSH: the pushed register is read after the decrement, so PUSH R7 stores the decremented stack pointer (R100;
decision D23, log 14). -/
def execPush (reg : Byte) (s : State) : Host.Outcome State Fault Refusal :=
  .next (withReg reg s fun r => stackPush (fun s1 => s1.reg r) s fun t => advance 2 t)

/-- POP: the register is written before x[7] is incremented, so POP R7 ends with the popped byte plus 1 (R101; decision
D23, log 14). -/
def execPop (reg : Byte) (s : State) : Host.Outcome State Fault Refusal :=
  .next (withReg reg s fun r => orRaise s (stackTop s) fun v =>
    let s1 := s.setReg r v
    advance 2 (s1.setReg spIdx s1.spUp))

end Sys2Proof.Machine
end

