-- ==== Sys2Proof/Machine/System.lean ====
section
/-! DEFINITION. NOP and HLT (40_execution_cycle.md section 3). -/

namespace Sys2Proof.Machine

/-- NOP: nothing, then the advance by 1 (R78). -/
def execNop (s : State) : Host.Outcome State Fault Refusal := .next (advance 1 s)

/-- HLT: run <- Halted(Hlt); the cycle completes, so pc advances by 1 (R79; decision D14, log 7). -/
def execHlt (s : State) : Host.Outcome State Fault Refusal := .next (advance 1 (s.setRun (.halted .hlt)))

end Sys2Proof.Machine
end

