-- ==== Sys2Proof/Machine/Cycle.lean ====
section
/-! DEFINITION. One pass of the execution loop (40_execution_cycle.md R71 to R77, R81): fetch, decode, operand fetch,
dispatch, handler and advance. It is the atomic step of a running machine. -/

namespace Sys2Proof.Machine

/-- The fetches of a cycle in their order: the opcode, the two operand bytes that are always read, and the third when
op[7:6] = 3. Addresses are unbounded integers and each read is range-checked (R71, R73; decisions D4 and D11, log 4,
log 13). Where the third byte is not read its slot is 0, which no handler uses (log 10). -/
def fetch (s : State) : Except HaltCause Window := do
  let op ← memRead s s.pc.toNat
  let opa ← memRead s (s.pc.toNat + 1)
  let opb ← memRead s (s.pc.toNat + 2)
  let opc ← if operandCount op = 3 then memRead s (s.pc.toNat + 3) else pure 0#8
  return { op, opa, opb, opc }

/-- One cycle (R81): an error of the fetch is raised, an unassigned opcode raises UnknownOpcode (R74, R167), and an
instruction runs its handler and the advance. -/
def cycle (s : State) : Host.Outcome State Fault Refusal :=
  match fetch s with
  | .error c => .next (raise c s)
  | .ok w =>
    match decode w with
    | .error (.unknownOpcode op) => .next (raise (.unknownOpcode op) s)
    | .ok i => exec i s

end Sys2Proof.Machine
end

