-- ==== Sys2Proof/Machine/Step.lean ====
section
/-! DEFINITION. The step of the machine (40_execution_cycle.md R70): one cycle while it is Running. -/

namespace Sys2Proof.Machine

/-- One step. It is one cycle, defined only while run = Running (R70, R81). In Ready nothing executes before the host's
start action, and in Halted nothing executes ever again: both are stuck states, by name (log 5). -/
def step (s : State) : Host.Outcome State Fault Refusal :=
  match s.run with
  | .ready => .fault .notStarted
  | .halted c => .fault (.halted c)
  | .running => cycle s

/-- Memory with the byte stored at an address that exists; nothing is stored outside. -/
def State.placeByte (s : State) (addr : Nat) (v : Byte) : State :=
  if addr < s.params.memSize.toNat then s.setMem (s.mem.write addr v) else s

/-- `s` with the instruction of a table word stored at pc and the machine started, so that the next step fetches and runs
it: the host's load and start actions in one (log 8). -/
def State.withFetchWord (s : State) (nbits w : Nat) : State :=
  let v := tableWordWindow nbits w
  let a := s.pc.toNat
  let t := (((s.placeByte a v.op).placeByte (a + 1) v.opa).placeByte (a + 2) v.opb).placeByte (a + 3) v.opc
  t.setRun .running

end Sys2Proof.Machine
end

