-- ==== Sys2Proof/Machine/Boot.lean ====
section
/-! DEFINITION. What the host can do to the core (70_reset_and_hazards.md R190 to R194, 40_execution_cycle.md R80): reset,
load, start. These happen between steps and are no instructions (log 8, log 16). -/

namespace Sys2Proof.Machine

/-- Reset: every piece of state gets its reset value, in any run state; nothing survives but the parameters the machine
was built with (R190). -/
def State.hostReset (s : State) : State := State.resetOf s.params

/-- Load byte `v` at address `addr`: only in Ready, only inside memory (R192, R194; decision D18, log 16). -/
def State.hostLoadByte (s : State) (addr : Nat) (v : Byte) : Host.Outcome State Fault Refusal :=
  match s.run with
  | .ready =>
    if addr < s.params.memSize.toNat then .next (s.setMem (s.mem.write addr v))
    else .refused (.loadOutsideMemory addr)
  | _ => .refused .loadNotReady

/-- Memory with the bytes written one after the other, from an address on. -/
def Memory.writeAll : Memory → Nat → List Byte → Memory
  | m, _, [] => m
  | m, a, b :: bs => Memory.writeAll (m.write a b) (a + 1) bs

/-- Load a program sequentially from address 0: only in Ready, and a program longer than memory is refused (R192; decision
D18, log 16). -/
def State.hostLoad (s : State) (program : List Byte) : Host.Outcome State Fault Refusal :=
  match s.run with
  | .ready =>
    if program.length ≤ s.params.memSize.toNat then .next (s.setMem (Memory.writeAll s.mem 0 program))
    else .refused (.loadOutsideMemory s.params.memSize.toNat)
  | _ => .refused .loadNotReady

/-- Start: only in Ready; run <- Running and nothing else (R80; decision D20). -/
def State.hostStart (s : State) : Host.Outcome State Fault Refusal :=
  match s.run with
  | .ready => .next (s.setRun .running)
  | _ => .refused .startNotReady

/-- The boot sequence of R191: reset, load, start. -/
def launch (p : Params) (program : List Byte) : Host.Outcome State Fault Refusal :=
  match (State.resetOf p).hostLoad program with
  | .next s => s.hostStart
  | .fault f => .fault f
  | .refused r => .refused r

end Sys2Proof.Machine
end

