-- ==== Sys2Proof/Safety.lean ====
section
/-! DEFINITION. The terms claims are stated in: what a cause may record, the invariant every step keeps, how a run ends, and
which registers and which cell an instruction may write. -/

namespace Sys2Proof.Machine

/-- The values a halt cause may record (60_exceptions.md R166). -/
def HaltCause.Legal (p : Params) : HaltCause → Prop
  | .hlt => True
  | .unknownOpcode op => lookup op = none
  | .divideByZero op => op = opcodeByte .div ∨ op = opcodeByte .mod
  | .addressOutOfRange addr => p.memSize.toNat ≤ addr ∧ addr ≤ 256
  | .invalidRegister b => 7 < b.toNat

/-- A Halted state records a legal cause (R20, R166). -/
def RunState.Legal (p : Params) : RunState → Prop
  | .ready => True
  | .running => True
  | .halted c => c.Legal p

/-- At most one of the three flags is set (R18). -/
abbrev Flags.AtMostOne (f : Flags) : Prop := !(f.e && f.g) && !(f.e && f.l) && !(f.g && f.l)

/-- Exactly one of the three flags is set (R18, R126). -/
abbrev Flags.ExactlyOne (f : Flags) : Prop := f.AtMostOne ∧ (f.e || f.g || f.l)

/-- Every listed cell exists (R24). -/
def Memory.Below (n : Nat) (m : Memory) : Prop := ∀ c ∈ m, c.1 < n

/-- The invariant of the machine: the parameters are legal (R2), memory is in its canonical form and lists only cells that
exist (R24), at most one flag is set (R18), and a halt cause records a legal value (R166). -/
structure State.Inv (s : State) : Prop where
  params : s.params.Legal
  canonical : s.mem.wf = true
  inRange : s.mem.Below s.params.memSize.toNat
  flags : s.fl.AtMostOne
  cause : s.run.Legal s.params

/-- The run has ended in a fatal error (R165, R195). -/
def State.Failed (s : State) : Prop := ∃ c, s.run = .halted c ∧ c ≠ .hlt

/-- The run has ended normally: the cause is Hlt (R195). -/
def State.EndedNormally (s : State) : Prop := s.run = .halted .hlt

/-- `t` is reached from `s` by steps. -/
inductive Reaches (s : State) : State → Prop where
  | refl : Reaches s s
  | tail {t u : State} : Reaches s t → step t = .next u → Reaches s u

/-- The registers an instruction may write (10_state.md R13): its destination operand, and register 7 for the stack
instructions. An operand byte above 7 names none. -/
def writesReg (i : Instr) (r : RegIdx) : Bool :=
  match i with
  | .nop => false
  | .hlt => false
  | .ldi d _ => d.toNat == r.val
  | .ld d _ => d.toNat == r.val
  | .st _ _ => false
  | .push _ => r == spIdx
  | .pop d => d.toNat == r.val || r == spIdx
  | .prn _ => false
  | .pra _ => false
  | .add a _ => a.toNat == r.val
  | .sub a _ => a.toNat == r.val
  | .mul a _ => a.toNat == r.val
  | .div a _ => a.toNat == r.val
  | .mod a _ => a.toNat == r.val
  | .cmp _ _ => false
  | .and a _ => a.toNat == r.val
  | .or a _ => a.toNat == r.val
  | .xor a _ => a.toNat == r.val
  | .shl a _ => a.toNat == r.val
  | .shr a _ => a.toNat == r.val
  | .not a => a.toNat == r.val
  | .inc a => a.toNat == r.val
  | .dec a => a.toNat == r.val
  | .addi d _ _ => d.toNat == r.val
  | .call _ => r == spIdx
  | .ret => r == spIdx
  | .jmp _ => false
  | .jeq _ => false
  | .jne _ => false

/-- The content of the register an operand byte names, as an address. -/
def registerAddress (b : Byte) (s : State) : Option Nat := (regIndex b).toOption.map fun r => (s.reg r).toNat

/-- The address an instruction stores to (20_memory.md R33): ST at the content of its address register, PUSH and CALL at
the decremented stack pointer; the others store nothing. -/
def storeAddress (i : Instr) (s : State) : Option Nat :=
  match i with
  | .nop => none
  | .hlt => none
  | .ldi _ _ => none
  | .ld _ _ => none
  | .st addr _ => registerAddress addr s
  | .push _ => some s.spDown.toNat
  | .pop _ => none
  | .prn _ => none
  | .pra _ => none
  | .add _ _ => none
  | .sub _ _ => none
  | .mul _ _ => none
  | .div _ _ => none
  | .mod _ _ => none
  | .cmp _ _ => none
  | .and _ _ => none
  | .or _ _ => none
  | .xor _ _ => none
  | .shl _ _ => none
  | .shr _ _ => none
  | .not _ => none
  | .inc _ => none
  | .dec _ => none
  | .addi _ _ _ => none
  | .call _ => some s.spDown.toNat
  | .ret => none
  | .jmp _ => none
  | .jeq _ => none
  | .jne _ => none

/-- The address of an instruction's data access, read or write (20_memory.md R33): the address register of LD and ST, the
stack pointer of POP and RET, the decremented stack pointer of PUSH and CALL. -/
def dataAddress (i : Instr) (s : State) : Option Nat :=
  match i with
  | .nop => none
  | .hlt => none
  | .ldi _ _ => none
  | .ld _ src => registerAddress src s
  | .st addr _ => registerAddress addr s
  | .push _ => some s.spDown.toNat
  | .pop _ => some (s.reg spIdx).toNat
  | .prn _ => none
  | .pra _ => none
  | .add _ _ => none
  | .sub _ _ => none
  | .mul _ _ => none
  | .div _ _ => none
  | .mod _ _ => none
  | .cmp _ _ => none
  | .and _ _ => none
  | .or _ _ => none
  | .xor _ _ => none
  | .shl _ _ => none
  | .shr _ _ => none
  | .not _ => none
  | .inc _ => none
  | .dec _ => none
  | .addi _ _ _ => none
  | .call _ => some s.spDown.toNat
  | .ret => some (s.reg spIdx).toNat
  | .jmp _ => none
  | .jeq _ => none
  | .jne _ => none

/-- The divisor of DIV and MOD is not 0 (60_exceptions.md R168); the other instructions have none. -/
def divisorNonzero (i : Instr) (s : State) : Prop :=
  ∀ (a b : Byte) (r : RegIdx), i = .div a b ∨ i = .mod a b → b.toNat = r.val → s.reg r ≠ 0#8

/-- `t` is `s` but for the program counter, which is `pc`. -/
structure OnlyPc (s t : State) (pc : Nat) : Prop where
  pc : t.pc.toNat = pc
  regs : ∀ r, t.reg r = s.reg r
  params : t.params = s.params
  fl : t.fl = s.fl
  mem : t.mem = s.mem
  run : t.run = s.run
  out : t.out = s.out

/-- `t` is `s` but for register `d`, which holds `v`, and the program counter, which is `pc`. -/
structure OnlyRegister (s t : State) (d : RegIdx) (v pc : Nat) : Prop where
  value : (t.reg d).toNat = v
  regs : ∀ r, r ≠ d → t.reg r = s.reg r
  pc : t.pc.toNat = pc
  params : t.params = s.params
  fl : t.fl = s.fl
  mem : t.mem = s.mem
  run : t.run = s.run
  out : t.out = s.out

end Sys2Proof.Machine
end

