-- ==== Sys2Proof/Certificates/Slice0/Obligations.lean ====
section
/-! DEFINITION. The statements about the machine, in the order of OBLIGATIONS.json. Where one rests on a decision of the
spec (92_eei_decisions.md D<n>) or on a choice of the model, its docstring says so and names the log entry. -/

open Sys2Proof
open Sys2Proof.Machine

/-! ### Reset, load, start -/

/-- 10_state.md R25: the state after reset, for every choice of the parameters. That all flags are false is decision D12
(log 11); the default parameters are decisions D1 and D2 (log 1, log 2). -/
def Obligations.ResetValuesOfEveryField : Prop :=
  (∀ p : Params,
    (∀ r : RegIdx, r ≠ 7 → (State.resetOf p).reg r = 0#8) ∧ (State.resetOf p).reg 7 = p.spInit ∧
    (State.resetOf p).pc = 0#8 ∧ (∀ i : Fin 8, (State.resetOf p).fl.slot i = false) ∧
    (State.resetOf p).fl = { e := false, g := false, l := false } ∧
    (∀ a, (State.resetOf p).mem.read a = 0#8) ∧
    (State.resetOf p).run = .ready ∧ (State.resetOf p).out = [] ∧ (State.resetOf p).params = p) ∧
  State.reset = State.resetOf Params.default ∧
  State.reset.params.memSize.toNat = 255 ∧ State.reset.reg 7 = 0xF4#8

/-- The invariant of the machine holds after reset, for every legal choice of the parameters (R2, R18, R24, R25). -/
def Obligations.ResetMeetsInvariant : Prop :=
  (∀ p : Params, p.Legal → (State.resetOf p).Inv) ∧ State.reset.Inv

/-- 70_reset_and_hazards.md R190: the host's reset gives every piece of state its reset value from any state, nothing but
the parameters survives, and from Halted neither a step nor a load nor a start leads anywhere. The flags' reset value is
decision D12 (log 11); that a step in Halted answers no next state is how the model renders R70 (log 5). -/
def Obligations.HostResetAloneLeavesHalted : Prop :=
  (∀ s : State,
    (∀ r : RegIdx, r ≠ 7 → s.hostReset.reg r = 0#8) ∧ s.hostReset.reg 7 = s.params.spInit ∧
    s.hostReset.pc = 0#8 ∧ s.hostReset.fl = { e := false, g := false, l := false } ∧
    (∀ a, s.hostReset.mem.read a = 0#8) ∧ s.hostReset.run = .ready ∧ s.hostReset.out = [] ∧
    s.hostReset.params = s.params) ∧
  (∀ (s t : State) (c : HaltCause), s.run = .halted c →
    step s ≠ .next t ∧ s.hostStart ≠ .next t ∧ (∀ bs, s.hostLoad bs ≠ .next t) ∧ (∀ a v, s.hostLoadByte a v ≠ .next t))

/-- 40_execution_cycle.md R80: start is defined in Ready only (decision D20), and sets run to Running and nothing else.
Elsewhere the model refuses it (log 16). -/
def Obligations.StartOnlyFromReady : Prop :=
  ∀ s : State,
    (s.run = .ready → ∃ t, s.hostStart = .next t ∧ t.run = .running ∧ t.params = s.params ∧ (∀ r, t.reg r = s.reg r) ∧
      t.pc = s.pc ∧ t.fl = s.fl ∧ t.mem = s.mem ∧ t.out = s.out) ∧
    (s.run ≠ .ready → s.hostStart = .refused .startNotReady)

/-- 70_reset_and_hazards.md R192, R194 (decision D18, log 16): in Ready a program of at most MEM_SIZE bytes is written from
address 0 on, one byte a cell, and nothing else changes; a longer program, and a load outside Ready, is refused. -/
def Obligations.LoadWritesProgramFromZero : Prop :=
  ∀ (s : State) (program : List Byte), s.mem.wf = true →
    (s.run = .ready → program.length ≤ s.params.memSize.toNat →
      ∃ t, s.hostLoad program = .next t ∧
        (∀ i, t.mem.read i = program.getD i (s.mem.read i)) ∧ t.mem.wf = true ∧
        (∀ r, t.reg r = s.reg r) ∧ t.pc = s.pc ∧ t.fl = s.fl ∧ t.run = s.run ∧ t.out = s.out ∧ t.params = s.params) ∧
    (s.run = .ready → s.params.memSize.toNat < program.length → ∀ t, s.hostLoad program ≠ .next t) ∧
    (s.run ≠ .ready → s.hostLoad program = .refused .loadNotReady)

/-- 70_reset_and_hazards.md R191: after reset, load and start the machine is Running at address 0, with the program in
memory and zero beyond it. That all flags are false is decision D12 (log 11), the loader's limit is decision D18 (log 16), that
start works in Ready is decision D20 (log 16), and launch as the host's reset, load and start is the model's rendering of
them (log 8). -/
def Obligations.LaunchStartsProgramAtZero : Prop :=
  ∀ (p : Params) (program : List Byte), program.length ≤ p.memSize.toNat →
    ∃ t, launch p program = .next t ∧ t.run = .running ∧ t.pc = 0#8 ∧
      (∀ i, t.mem.read i = program.getD i 0#8) ∧ t.reg 7 = p.spInit ∧ (∀ r, r ≠ 7 → t.reg r = 0#8) ∧
      t.fl = { e := false, g := false, l := false } ∧ t.out = [] ∧ t.params = p

/-! ### The step -/

/-- 40_execution_cycle.md R70: a step is taken in Running only; there it always leads to one next state, and it executes
exactly one instruction or raises exactly one fatal error of the fetch or the dispatch. -/
def Obligations.StepsOnlyWhileRunning : Prop :=
  ∀ s : State,
    (s.run ≠ .running → ∀ t, step s ≠ .next t) ∧
    (s.run = .running → ∃ t, step s = .next t ∧
      ((∃ w i, fetch s = .ok w ∧ decode w = .ok i ∧ exec i s = .next t) ∨
       (∃ c, c ≠ .hlt ∧ t = s.setRun (.halted c) ∧ ∀ w i, fetch s = .ok w → decode w ≠ .ok i)))

/-- What the model's step answers where R70 lets nothing execute: a named fault (the model's own rendering, log 5). -/
def Obligations.StepOutsideRunningIsNamedFault : Prop :=
  ∀ s : State,
    (s.run = .ready → step s = .fault .notStarted) ∧
    (∀ c, s.run = .halted c → step s = .fault (.halted c))

/-- 40_execution_cycle.md R71 to R75, R81: where the bytes at pc exist and decode to an instruction, the step is that
instruction's execution. The step adds nothing around it. The range check of the operand reads is decision D11 (log 13),
the third operand byte is decision D4 (log 4). -/
def Obligations.StepRunsTheDecodedInstruction : Prop :=
  ∀ (s : State) (w : Window) (i : Instr), s.run = .running →
    s.pc.toNat + 2 < s.params.memSize.toNat →
    w.op = s.mem.read s.pc.toNat → w.opa = s.mem.read (s.pc.toNat + 1) → w.opb = s.mem.read (s.pc.toNat + 2) →
    (w.op >>> 6 = 3#8 → s.pc.toNat + 3 < s.params.memSize.toNat ∧ w.opc = s.mem.read (s.pc.toNat + 3)) →
    decode w = .ok i →
    step s = exec i s

/-- 40_execution_cycle.md R71, R73 and 60_exceptions.md R172 items 1 and 2: the first byte of the cycle that lies outside
memory is raised, before the opcode is looked up, and nothing else changes (decisions D9, D11, D19; log 13, log 17). The read
at pc + 3, made when the opcode's two high bits are 11, assigned or not, is decision D4 (log 4). -/
def Obligations.FetchRaisesFirstMissingAddress : Prop :=
  ∀ s : State, s.run = .running →
    (s.params.memSize.toNat ≤ s.pc.toNat →
      step s = .next (s.setRun (.halted (.addressOutOfRange s.pc.toNat)))) ∧
    (s.params.memSize.toNat = s.pc.toNat + 1 →
      step s = .next (s.setRun (.halted (.addressOutOfRange (s.pc.toNat + 1))))) ∧
    (s.params.memSize.toNat = s.pc.toNat + 2 →
      step s = .next (s.setRun (.halted (.addressOutOfRange (s.pc.toNat + 2))))) ∧
    (s.params.memSize.toNat = s.pc.toNat + 3 → s.mem.read s.pc.toNat >>> 6 = 3#8 →
      step s = .next (s.setRun (.halted (.addressOutOfRange (s.pc.toNat + 3)))))

/-- 30_encoding.md R58: an opcode byte that no instruction has raises UnknownOpcode at dispatch, whatever its operand bytes;
pc is not advanced and nothing else changes. -/
def Obligations.UnassignedOpcodeHalts : Prop :=
  ∀ (s : State) (w : Window), s.run = .running → fetch s = .ok w → (∀ o, opcodeByte o ≠ w.op) →
    step s = .next (s.setRun (.halted (.unknownOpcode w.op)))

/-- 30_encoding.md R57 and 40_execution_cycle.md R75, for every instruction: the first register operand byte above 7 is
raised before anything else changes (decisions D10, D19; log 13, log 17). -/
def Obligations.RegisterByteAboveSevenHalts : Prop :=
  ∀ (i : Instr) (s : State) (pre post : List Byte) (b : Byte),
    i.registerOperands = pre ++ b :: post → (∀ c ∈ pre, c.toNat ≤ 7) → 7 < b.toNat →
    exec i s = .next (s.setRun (.halted (.invalidRegister b)))

/-- 60_exceptions.md R168: MOD and DIV with a divisor of 0 raise DivideByZero with their opcode byte and change nothing else,
and no other instruction raises it. That DIV raises it is decisions D5 and D6 (log 12), the bytes are decision D3 (log 3). -/
def Obligations.DivideByZeroHalts : Prop :=
  (∀ (a b : Byte) (ra rb : RegIdx) (s : State), a.toNat = ra.val → b.toNat = rb.val → s.reg rb = 0#8 →
    exec (.mod a b) s = .next (s.setRun (.halted (.divideByZero (opcodeByte .mod)))) ∧
    exec (.div a b) s = .next (s.setRun (.halted (.divideByZero (opcodeByte .div))))) ∧
  (∀ (i : Instr) (s t : State) (op : Byte), s.run = .running → exec i s = .next t → t.run = .halted (.divideByZero op) →
    i.opcode = .mod ∨ i.opcode = .div)

/-- 41_load_store.md R91, R92, 42_stack.md R100, R101, 45_control_flow.md R151, R152: a data access at or above MEM_SIZE raises
AddressOutOfRange. LD, ST, POP and RET then change nothing else; PUSH and CALL have decremented register 7 (decisions D9
and D15; log 6, log 13). -/
def Obligations.DataAccessOutsideMemoryHalts : Prop :=
  ∀ (a b : Byte) (ra rb : RegIdx) (s : State), a.toNat = ra.val → b.toNat = rb.val →
    (s.params.memSize.toNat ≤ (s.reg rb).toNat →
      exec (.ld a b) s = .next (s.setRun (.halted (.addressOutOfRange (s.reg rb).toNat)))) ∧
    (s.params.memSize.toNat ≤ (s.reg ra).toNat →
      exec (.st a b) s = .next (s.setRun (.halted (.addressOutOfRange (s.reg ra).toNat)))) ∧
    (s.params.memSize.toNat ≤ (s.reg 7).toNat →
      exec (.pop a) s = .next (s.setRun (.halted (.addressOutOfRange (s.reg 7).toNat))) ∧
      exec .ret s = .next (s.setRun (.halted (.addressOutOfRange (s.reg 7).toNat)))) ∧
    (s.params.memSize = .cells255 → s.reg 7 = 0#8 →
      exec (.push a) s = .next ((s.setReg 7 255#8).setRun (.halted (.addressOutOfRange 255))) ∧
      exec (.call a) s = .next ((s.setReg 7 255#8).setRun (.halted (.addressOutOfRange 255))))

/-- 40_execution_cycle.md R76 and 60_exceptions.md R173: when the advance of an instruction would pass 255, its whole effect
has happened, pc keeps its value and AddressOutOfRange records the sum (decisions D8 and D15; log 6, log 13). The effect
is said through the same instruction at pc 0, where the advance succeeds. -/
def Obligations.AdvancePastTopHaltsAfterEffect : Prop :=
  ∀ (i : Instr) (s u : State), i.opcode.selfAdvancing = false →
    255 < s.pc.toNat + instrLength (opcodeByte i.opcode) →
    exec i (s.setPc 0#8) = .next u → u.pc ≠ 0#8 →
    exec i s = .next ((u.setPc s.pc).setRun
      (.halted (.addressOutOfRange (s.pc.toNat + instrLength (opcodeByte i.opcode)))))

/-- 60_exceptions.md R170 and R173: what a step that raises a fatal error leaves. pc is the address of the failing
instruction and earlier output stands. Unless it is the advance that failed, after the fetch had succeeded, nothing has
changed but register 7, decremented by a PUSH or a CALL. The concrete values are decision D15 (log 6). -/
def Obligations.FatalErrorKeepsEarlierState : Prop :=
  ∀ (s t : State) (c : HaltCause), step s = .next t → t.run = .halted c → c ≠ .hlt →
    t.pc = s.pc ∧ s.out <+: t.out ∧ t.params = s.params ∧
    ((c = .addressOutOfRange 256 ∧ s.params.memSize = .cells256 ∧
        ∃ w, fetch s = .ok w ∧ s.pc.toNat + instrLength w.op = 256) ∨
     (t.out = s.out ∧ t.fl = s.fl ∧ t.mem = s.mem ∧ (∀ r, r ≠ 7 → t.reg r = s.reg r) ∧
        (t.reg 7 = s.reg 7 ∨
         (t.reg 7 = s.reg 7 - 1#8 ∧
          ∃ w, fetch s = .ok w ∧ (w.op = opcodeByte .push ∨ w.op = opcodeByte .call)))))

/-- 40_execution_cycle.md R82: the program counter after a cycle that is neither HLT nor a fatal error. That CALL reads its
register after the push, so that CALL R7 goes to the decremented stack pointer, is decision D23 (log 14). -/
def Obligations.PcAfterOneCycle : Prop :=
  ∀ (s t : State) (w : Window) (i : Instr), step s = .next t → fetch s = .ok w → decode w = .ok i → t.run = .running →
    (i.opcode ∉ [Opcode.call, .ret, .jmp, .jeq, .jne] → t.pc.toNat = s.pc.toNat + instrLength w.op) ∧
    (∀ b, i = .call b → ∃ r : RegIdx, b.toNat = r.val ∧ t.pc = t.reg r) ∧
    (i = .ret → t.pc = s.mem.read (s.reg 7).toNat) ∧
    (∀ b, i = .jmp b → ∃ r : RegIdx, b.toNat = r.val ∧ t.pc = s.reg r) ∧
    (∀ b, i = .jeq b → ∃ r : RegIdx, b.toNat = r.val ∧
      (s.fl.e = true → t.pc = s.reg r) ∧ (s.fl.e = false → t.pc.toNat = s.pc.toNat + 2)) ∧
    (∀ b, i = .jne b → ∃ r : RegIdx, b.toNat = r.val ∧
      (s.fl.e = false → t.pc = s.reg r) ∧ (s.fl.e = true → t.pc.toNat = s.pc.toNat + 2))

/-- 40_execution_cycle.md R79 and 70_reset_and_hazards.md R195: a step ends the run normally exactly when it executes HLT. -/
def Obligations.OnlyHltEndsRunNormally : Prop :=
  ∀ s t : State, step s = .next t →
    (t.EndedNormally ↔ ∃ w, fetch s = .ok w ∧ decode w = .ok .hlt)

/-- 70_reset_and_hazards.md R193 (c), (d), (e) with the range of the data address: under what software must ensure, a step of
a running machine meets no fatal error. That these cases are the errors is decisions D4 and D8 to D11 (log 4, log 13). -/
def Obligations.SoftwareObligationsPreventErrors : Prop :=
  ∀ (s : State) (w : Window) (i : Instr), s.run = .running → fetch s = .ok w → decode w = .ok i →
    i.WellFormed → (∀ a, dataAddress i s = some a → a < s.params.memSize.toNat) → divisorNonzero i s →
    (i.opcode.selfAdvancing = false → s.pc.toNat + instrLength w.op ≤ 255) →
    ∃ t, step s = .next t ∧ ¬ t.Failed

/-- Every step keeps the invariant: legal parameters, memory in its canonical form inside MEM_SIZE, at most one flag set
(R18), a halt cause that records a legal value (R166; decisions D8 to D11, log 13). -/
def Obligations.EveryStepKeepsInvariant : Prop :=
  ∀ s t : State, s.Inv → step s = .next t → t.Inv

/-- 10_state.md R18, R24 and 60_exceptions.md R166 over runs: whatever program is launched, every state its run reaches meets
the invariant. What a halt cause may record rests on decisions D8 to D11 (log 13), launch is the host's reset, load and
start (R191; log 8, log 16), and the flags it starts with are decision D12 (log 11). -/
def Obligations.LaunchedRunsStayInInvariant : Prop :=
  ∀ (p : Params) (program : List Byte) (s t : State), p.Legal → launch p program = .next s → Reaches s t → t.Inv

/-! ### Encoding -/

/-- For every opcode assignment that meets R52 (the parameter OPC of R2, so also for the table of R55): decoding the bytes of
an instruction, followed by any bytes, gives the instruction, with every operand byte at every value. -/
def Obligations.DecodeOfEncodeIsIdentity : Prop :=
  ∀ (opc : Opcode → Byte), LegalAssignment opc → ∀ (i : Instr) (rest : List Byte),
    decodeIn opc (Window.ofList (encodeIn opc i ++ rest)) = .ok i

/-- What is decoded encodes to the bytes it was decoded from (R50, R52, R54). -/
def Obligations.EncodeOfDecodeIsTheBytes : Prop :=
  ∀ (w : Window) (i : Instr), decode w = .ok i → encode i = w.bytes.take (instrLength w.op)

/-- 30_encoding.md R52: the decoder's two outputs by the source's formulas, for every byte; and the structural constraint: for
each instruction N is its operand count, and C is set exactly for CALL, RET, JMP, JEQ, JNE (met by the byte values of
decisions D3 and D4; log 3, log 4). -/
def Obligations.DecoderLengthAndSelfAdvance : Prop :=
  (∀ op : Byte, instrLength op = op.toNat / 64 % 4 + 1 ∧ (selfAdvances op = true ↔ op.toNat / 16 % 2 = 1)) ∧
  (∀ i : Instr, operandCount (opcodeByte i.opcode) = i.operands.length) ∧
  (∀ o : Opcode, selfAdvances (opcodeByte o) = true ↔ o ∈ [Opcode.call, .ret, .jmp, .jeq, .jne])

/-- 30_encoding.md R55, R56: the opcode table is a legal assignment, 227 byte values are unassigned, and the bytes the public
LS-8 gives to INT, IRET, JGT, JLT, JLE and JGE are among them. The byte values are decisions D3 and D4 (log 3, log 4). -/
def Obligations.OpcodeTableIsLegal : Prop :=
  LegalAssignment opcodeByte ∧
  ((List.range 256).filter fun n => lookup (BitVec.ofNat 8 n) == none).length = 227 ∧
  (∀ op ∈ [0x52#8, 0x13#8, 0x57#8, 0x58#8, 0x59#8, 0x5A#8], lookup op = none)

/-- Words written out from 30_encoding.md R55, one or more of each format, decode to the instructions they stand for (byte
values by decisions D3 and D4; log 3, log 4). -/
def Obligations.WrittenOutWordsDecode : Prop :=
  decode ⟨0b00000001#8, 0#8, 0#8, 0#8⟩ = .ok .hlt ∧
  decode ⟨0b00010001#8, 0#8, 0#8, 0#8⟩ = .ok .ret ∧
  decode ⟨0b01000101#8, 0b00000111#8, 0#8, 0#8⟩ = .ok (.push 7#8) ∧
  decode ⟨0b01010100#8, 0b00000010#8, 0#8, 0#8⟩ = .ok (.jmp 2#8) ∧
  decode ⟨0b10000010#8, 0b00000011#8, 0b10000001#8, 0#8⟩ = .ok (.ldi 3#8 129#8) ∧
  decode ⟨0b10000100#8, 0b00000001#8, 0b00000110#8, 0#8⟩ = .ok (.st 1#8 6#8) ∧
  decode ⟨0b10100100#8, 0b00000101#8, 0b00000010#8, 0#8⟩ = .ok (.mod 5#8 2#8) ∧
  decode ⟨0b11100000#8, 0b00000100#8, 0b00000001#8, 0b11111111#8⟩ = .ok (.addi 4#8 1#8 255#8) ∧
  decode ⟨0b01010111#8, 0#8, 0#8, 0#8⟩ = .error (.unknownOpcode 0x57#8)

/-- 40_execution_cycle.md R73: two fetches that agree on the instruction's own bytes decode alike; the value of an unused
fetched byte has no effect. -/
def Obligations.UnusedOperandBytesIgnored : Prop :=
  ∀ w w' : Window, w.bytes.take (instrLength w.op) = w'.bytes.take (instrLength w.op) → decode w = decode w'

/-! ### Frames -/

/-- 10_state.md R13, for every instruction: whatever it does, an error included, it leaves every register alone but its
destination operand and, for PUSH, POP, CALL and RET, register 7. -/
def Obligations.InstructionsWriteOnlyTheirRegisters : Prop :=
  ∀ (i : Instr) (s t : State), exec i s = .next t → ∀ r : RegIdx, writesReg i r = false → t.reg r = s.reg r

/-- 44_alu.md R136: only CMP writes flags; every other instruction, whatever it does, leaves all three unchanged. -/
def Obligations.OnlyCmpWritesFlags : Prop :=
  ∀ (i : Instr) (s t : State), exec i s = .next t → i.opcode ≠ .cmp → t.fl = s.fl

/-- 10_state.md R18: no instruction reads FL.G or FL.L. With other values of these two flags every instruction has the same
effect on everything else. -/
def Obligations.GreaterAndLessFlagsHaveNoReader : Prop :=
  ∀ (i : Instr) (s t : State) (g l : Bool), exec i s = .next t →
    ∃ t', exec i (s.setFlags { e := s.fl.e, g := g, l := l }) = .next t' ∧
      t'.regs = t.regs ∧ t'.pc = t.pc ∧ t'.mem = t.mem ∧ t'.run = t.run ∧ t'.out = t.out ∧ t'.fl.e = t.fl.e ∧
      (i.opcode ≠ .cmp → t'.fl.g = g ∧ t'.fl.l = l)

/-- 20_memory.md R33, for every instruction: only ST, PUSH and CALL store, each to the one address given; every other byte
reads as before, and with the other instructions every byte does. -/
def Obligations.InstructionsStoreOnlyAtTheirAddress : Prop :=
  ∀ (i : Instr) (s t : State), exec i s = .next t →
    (∀ a, storeAddress i s = some a → ∀ b, b ≠ a → t.mem.read b = s.mem.read b) ∧
    (storeAddress i s = none → ∀ b, t.mem.read b = s.mem.read b) ∧
    (storeAddress i s ≠ none → i.opcode = .st ∨ i.opcode = .push ∨ i.opcode = .call)

/-- 10_state.md R19: the output history is empty at reset, PRN and PRA append to it, nothing else changes it, and no
instruction reads it: with another history the instruction does the same and appends the same. -/
def Obligations.OutputAppendedByPrnAndPraOnly : Prop :=
  (∀ p, (State.resetOf p).out = []) ∧
  ∀ (i : Instr) (s : State) (o : List OutEvent),
    ∃ (t t' : State) (d : List OutEvent), exec i s = .next t ∧ exec i { s with out := o } = .next t' ∧
      t.out = s.out ++ d ∧ t'.out = o ++ d ∧ t' = { t with out := o ++ d } ∧
      (d = [] ∨ ∃ (b : Byte) (r : RegIdx), b.toNat = r.val ∧
        (i = .prn b ∧ d = [.dec (s.reg r)] ∨ i = .pra b ∧ d = [.chr (s.reg r)]))

/-- 00_scope.md R2: the parameters are fixed; and no instruction but HLT changes the run state otherwise than by raising a
fatal error (40_execution_cycle.md R79). -/
def Obligations.ParametersFixedAndRunKept : Prop :=
  ∀ (i : Instr) (s t : State), exec i s = .next t →
    t.params = s.params ∧ (i.opcode ≠ .hlt → t.run = s.run ∨ ∃ c, c ≠ .hlt ∧ t.run = .halted c)

/-! ### Results: each instruction completes, and what it leaves -/

/-- 40_execution_cycle.md R78: NOP advances pc by 1 and changes nothing else. -/
def Obligations.NopOnlyAdvances : Prop :=
  ∀ s : State, s.pc.toNat + 1 ≤ 255 → ∃ t, exec .nop s = .next t ∧ OnlyPc s t (s.pc.toNat + 1)

/-- 40_execution_cycle.md R79: HLT halts with cause Hlt. That pc has advanced by 1 is decision D14 (log 7). -/
def Obligations.HltHalts : Prop :=
  ∀ s : State, s.pc.toNat + 1 ≤ 255 →
    ∃ t, exec .hlt s = .next t ∧ t.run = .halted .hlt ∧ t.pc.toNat = s.pc.toNat + 1 ∧ (∀ r, t.reg r = s.reg r) ∧
      t.fl = s.fl ∧ t.mem = s.mem ∧ t.out = s.out ∧ t.params = s.params

/-- 41_load_store.md R90: LDI writes the immediate, all 8 bits, to the named register, register 7 included (R12). -/
def Obligations.LdiWritesImmediate : Prop :=
  ∀ (reg imm : Byte) (r : RegIdx) (s : State), reg.toNat = r.val → s.pc.toNat + 3 ≤ 255 →
    ∃ t, exec (.ldi reg imm) s = .next t ∧ OnlyRegister s t r imm.toNat (s.pc.toNat + 3)

/-- 41_load_store.md R91: LD writes the byte at the address in the source register, also when source and destination are
the same register (decisions D5 and D22; log 12, log 14). -/
def Obligations.LdReadsThroughRegister : Prop :=
  ∀ (dst src : Byte) (d r : RegIdx) (s : State), dst.toNat = d.val → src.toNat = r.val →
    (s.reg r).toNat < s.params.memSize.toNat → s.pc.toNat + 3 ≤ 255 →
    ∃ t, exec (.ld dst src) s = .next t ∧
      OnlyRegister s t d (s.mem.read (s.reg r).toNat).toNat (s.pc.toNat + 3)

/-- 41_load_store.md R92: ST stores the value register's byte at the address in the address register, and changes no other
byte and no register (that it is no no-op is decision D5, log 12). -/
def Obligations.StStoresThroughRegister : Prop :=
  ∀ (addr val : Byte) (a b : RegIdx) (s : State), s.mem.wf = true → addr.toNat = a.val → val.toNat = b.val →
    (s.reg a).toNat < s.params.memSize.toNat → s.pc.toNat + 3 ≤ 255 →
    ∃ t, exec (.st addr val) s = .next t ∧ t.mem.read (s.reg a).toNat = s.reg b ∧
      (∀ x, x ≠ (s.reg a).toNat → t.mem.read x = s.mem.read x) ∧ t.pc.toNat = s.pc.toNat + 3 ∧
      (∀ r, t.reg r = s.reg r) ∧ t.fl = s.fl ∧ t.run = s.run ∧ t.out = s.out ∧ t.params = s.params

/-- 42_stack.md R100, R102: PUSH decrements register 7 modulo 256 and stores the named register at the new top; PUSH R7
stores the decremented value (decision D23, log 14). -/
def Obligations.PushStoresBelowStackPointer : Prop :=
  ∀ (reg : Byte) (r : RegIdx) (s : State), s.mem.wf = true → reg.toNat = r.val →
    ((s.reg 7).toNat + 255) % 256 < s.params.memSize.toNat → s.pc.toNat + 2 ≤ 255 →
    ∃ t, exec (.push reg) s = .next t ∧ (t.reg 7).toNat = ((s.reg 7).toNat + 255) % 256 ∧
      t.mem.read (t.reg 7).toNat = (if r = 7 then t.reg 7 else s.reg r) ∧
      (∀ x, x ≠ (t.reg 7).toNat → t.mem.read x = s.mem.read x) ∧ (∀ q, q ≠ 7 → t.reg q = s.reg q) ∧
      t.pc.toNat = s.pc.toNat + 2 ∧ t.fl = s.fl ∧ t.run = s.run ∧ t.out = s.out ∧ t.params = s.params

/-- 42_stack.md R101, R102: POP loads the named register from the top of the stack and increments register 7 modulo 256; POP
R7 ends with the popped byte plus 1 (decision D23, log 14). Memory keeps every byte. -/
def Obligations.PopLoadsFromStackPointer : Prop :=
  ∀ (reg : Byte) (r : RegIdx) (s : State), reg.toNat = r.val →
    (s.reg 7).toNat < s.params.memSize.toNat → s.pc.toNat + 2 ≤ 255 →
    ∃ t, exec (.pop reg) s = .next t ∧
      (r ≠ 7 → t.reg r = s.mem.read (s.reg 7).toNat ∧ (t.reg 7).toNat = ((s.reg 7).toNat + 1) % 256) ∧
      (r = 7 → (t.reg 7).toNat = ((s.mem.read (s.reg 7).toNat).toNat + 1) % 256) ∧
      (∀ q, q ≠ 7 → q ≠ r → t.reg q = s.reg q) ∧ t.mem = s.mem ∧
      t.pc.toNat = s.pc.toNat + 2 ∧ t.fl = s.fl ∧ t.run = s.run ∧ t.out = s.out ∧ t.params = s.params

/-- 43_output.md R110, R111: PRN appends Dec and PRA appends Chr of the register's value, and change nothing else
(that PRA is no no-op is decision D5, log 12). -/
def Obligations.PrnAndPraEmitTheRegister : Prop :=
  ∀ (reg : Byte) (r : RegIdx) (s : State), reg.toNat = r.val → s.pc.toNat + 2 ≤ 255 →
    (∃ t, exec (.prn reg) s = .next t ∧ t.out = s.out ++ [.dec (s.reg r)] ∧ (∀ q, t.reg q = s.reg q) ∧
      t.pc.toNat = s.pc.toNat + 2 ∧ t.fl = s.fl ∧ t.mem = s.mem ∧ t.run = s.run ∧ t.params = s.params) ∧
    (∃ t, exec (.pra reg) s = .next t ∧ t.out = s.out ++ [.chr (s.reg r)] ∧ (∀ q, t.reg q = s.reg q) ∧
      t.pc.toNat = s.pc.toNat + 2 ∧ t.fl = s.fl ∧ t.mem = s.mem ∧ t.run = s.run ∧ t.params = s.params)

/-- 44_alu.md R121, R122, R123: ADD, SUB and MUL modulo 256, both sources read first (decision D22). SUB's formula is decisions
D5 and D6 (log 12). -/
def Obligations.AddSubMulModulo256 : Prop :=
  ∀ (a b : Byte) (ra rb : RegIdx) (s : State), a.toNat = ra.val → b.toNat = rb.val → s.pc.toNat + 3 ≤ 255 →
    (∃ t, exec (.add a b) s = .next t ∧
      OnlyRegister s t ra (((s.reg ra).toNat + (s.reg rb).toNat) % 256) (s.pc.toNat + 3)) ∧
    (∃ t, exec (.sub a b) s = .next t ∧
      OnlyRegister s t ra (((s.reg ra).toNat + 256 - (s.reg rb).toNat) % 256) (s.pc.toNat + 3)) ∧
    (∃ t, exec (.mul a b) s = .next t ∧
      OnlyRegister s t ra ((s.reg ra).toNat * (s.reg rb).toNat % 256) (s.pc.toNat + 3))

/-- 44_alu.md R124, R125, R137: with a divisor above 0 DIV leaves a quotient q and MOD a remainder m with
x[a] = q * x[b] + m and m < x[b]. DIV's formula is decisions D5 and D6 (log 12). -/
def Obligations.DivModQuotientRemainder : Prop :=
  ∀ (a b : Byte) (ra rb : RegIdx) (s : State), a.toNat = ra.val → b.toNat = rb.val → s.reg rb ≠ 0#8 →
    s.pc.toNat + 3 ≤ 255 →
    ∃ q m : Nat, (s.reg ra).toNat = q * (s.reg rb).toNat + m ∧ m < (s.reg rb).toNat ∧
      (∃ t, exec (.div a b) s = .next t ∧ OnlyRegister s t ra q (s.pc.toNat + 3)) ∧
      (∃ t, exec (.mod a b) s = .next t ∧ OnlyRegister s t ra m (s.pc.toNat + 3))

/-- 44_alu.md R126: CMP sets exactly the flag of the unsigned relation, clears the other two, and writes no register. -/
def Obligations.CmpSetsTheRelation : Prop :=
  ∀ (a b : Byte) (ra rb : RegIdx) (s : State), a.toNat = ra.val → b.toNat = rb.val → s.pc.toNat + 3 ≤ 255 →
    ∃ t, exec (.cmp a b) s = .next t ∧
      (t.fl.e = true ↔ (s.reg ra).toNat = (s.reg rb).toNat) ∧
      (t.fl.l = true ↔ (s.reg ra).toNat < (s.reg rb).toNat) ∧
      (t.fl.g = true ↔ (s.reg rb).toNat < (s.reg ra).toNat) ∧
      t.fl.ExactlyOne ∧ (∀ r, t.reg r = s.reg r) ∧ t.pc.toNat = s.pc.toNat + 3 ∧
      t.mem = s.mem ∧ t.run = s.run ∧ t.out = s.out ∧ t.params = s.params

/-- 44_alu.md R127, R128, R129: AND, OR and XOR bit by bit (the two-operand forms are decision D5, log 12). -/
def Obligations.AndOrXorBitwise : Prop :=
  ∀ (a b : Byte) (ra rb : RegIdx) (s : State), a.toNat = ra.val → b.toNat = rb.val → s.pc.toNat + 3 ≤ 255 →
    (∃ t v, exec (.and a b) s = .next t ∧ OnlyRegister s t ra v (s.pc.toNat + 3) ∧
      ∀ k, v.testBit k = ((s.reg ra).toNat.testBit k && (s.reg rb).toNat.testBit k)) ∧
    (∃ t v, exec (.or a b) s = .next t ∧ OnlyRegister s t ra v (s.pc.toNat + 3) ∧
      ∀ k, v.testBit k = ((s.reg ra).toNat.testBit k || (s.reg rb).toNat.testBit k)) ∧
    (∃ t v, exec (.xor a b) s = .next t ∧ OnlyRegister s t ra v (s.pc.toNat + 3) ∧
      ∀ k, v.testBit k = ((s.reg ra).toNat.testBit k != (s.reg rb).toNat.testBit k))

/-- 44_alu.md R130: NOT is the complement of the cell's 8 bits, 255 - x[a] (decision D7, log 12). -/
def Obligations.NotComplementsTheCell : Prop :=
  ∀ (a : Byte) (ra : RegIdx) (s : State), a.toNat = ra.val → s.pc.toNat + 2 ≤ 255 →
    ∃ t, exec (.not a) s = .next t ∧ OnlyRegister s t ra (255 - (s.reg ra).toNat) (s.pc.toNat + 2)

/-- 44_alu.md R131, R132: shifts by the whole byte, zeros shifted in, bits shifted out lost; a count of 8 or more gives 0
(decisions D5 and D17, log 12). -/
def Obligations.ShiftsByTheWholeCount : Prop :=
  ∀ (a b : Byte) (ra rb : RegIdx) (s : State), a.toNat = ra.val → b.toNat = rb.val → s.pc.toNat + 3 ≤ 255 →
    (∃ t, exec (.shl a b) s = .next t ∧
      OnlyRegister s t ra ((s.reg ra).toNat * 2 ^ (s.reg rb).toNat % 256) (s.pc.toNat + 3) ∧
      (8 ≤ (s.reg rb).toNat → t.reg ra = 0#8)) ∧
    (∃ t, exec (.shr a b) s = .next t ∧
      OnlyRegister s t ra ((s.reg ra).toNat / 2 ^ (s.reg rb).toNat) (s.pc.toNat + 3) ∧
      (8 ≤ (s.reg rb).toNat → t.reg ra = 0#8))

/-- 44_alu.md R133, R134: INC and DEC by 1 modulo 256 (decision D5, log 12). -/
def Obligations.IncDecByOne : Prop :=
  ∀ (reg : Byte) (r : RegIdx) (s : State), reg.toNat = r.val → s.pc.toNat + 2 ≤ 255 →
    (∃ t, exec (.inc reg) s = .next t ∧ OnlyRegister s t r (((s.reg r).toNat + 1) % 256) (s.pc.toNat + 2)) ∧
    (∃ t, exec (.dec reg) s = .next t ∧ OnlyRegister s t r (((s.reg r).toNat + 255) % 256) (s.pc.toNat + 2))

/-- 44_alu.md R135: ADDI writes the source register plus the immediate modulo 256 to the destination, also in place (the
4-byte form is decision D4, log 4). -/
def Obligations.AddiAddsImmediate : Prop :=
  ∀ (dst src imm : Byte) (d r : RegIdx) (s : State), dst.toNat = d.val → src.toNat = r.val → s.pc.toNat + 4 ≤ 255 →
    ∃ t, exec (.addi dst src imm) s = .next t ∧
      OnlyRegister s t d (((s.reg r).toNat + imm.toNat) % 256) (s.pc.toNat + 4)

/-- 45_control_flow.md R151: CALL pushes pc + 2 and jumps to the register's value after the push; CALL R7 jumps to the
decremented stack pointer (decision D23, log 14). -/
def Obligations.CallPushesReturnAddress : Prop :=
  ∀ (reg : Byte) (r : RegIdx) (s : State), s.mem.wf = true → reg.toNat = r.val →
    ((s.reg 7).toNat + 255) % 256 < s.params.memSize.toNat → s.pc.toNat + 2 ≤ 255 →
    ∃ t, exec (.call reg) s = .next t ∧ (t.reg 7).toNat = ((s.reg 7).toNat + 255) % 256 ∧
      (t.mem.read (t.reg 7).toNat).toNat = s.pc.toNat + 2 ∧
      (∀ x, x ≠ (t.reg 7).toNat → t.mem.read x = s.mem.read x) ∧ (∀ q, q ≠ 7 → t.reg q = s.reg q) ∧
      t.pc = (if r = 7 then t.reg 7 else s.reg r) ∧
      t.fl = s.fl ∧ t.run = s.run ∧ t.out = s.out ∧ t.params = s.params

/-- 45_control_flow.md R152: RET pops the top of the stack into pc and increments register 7 modulo 256; nothing else changes,
memory included. -/
def Obligations.RetPopsIntoPc : Prop :=
  ∀ s : State, (s.reg 7).toNat < s.params.memSize.toNat →
    ∃ t, exec .ret s = .next t ∧
      OnlyRegister s t 7 (((s.reg 7).toNat + 1) % 256) (s.mem.read (s.reg 7).toNat).toNat

/-- 45_control_flow.md R153, R150: JMP writes the register's value to pc, at or above MEM_SIZE too, and changes nothing else. -/
def Obligations.JmpGoesToRegister : Prop :=
  ∀ (reg : Byte) (r : RegIdx) (s : State), reg.toNat = r.val →
    ∃ t, exec (.jmp reg) s = .next t ∧ OnlyPc s t (s.reg r).toNat

/-- 45_control_flow.md R154, R155: JEQ and JNE by FL.E, on both outcomes, and nothing else changes. -/
def Obligations.JeqJneByEqualFlag : Prop :=
  ∀ (reg : Byte) (r : RegIdx) (s : State), reg.toNat = r.val → s.pc.toNat + 2 ≤ 255 →
    (∃ t, exec (.jeq reg) s = .next t ∧ OnlyPc s t (if s.fl.e then (s.reg r).toNat else s.pc.toNat + 2)) ∧
    (∃ t, exec (.jne reg) s = .next t ∧ OnlyPc s t (if s.fl.e then s.pc.toNat + 2 else (s.reg r).toNat))

/-! ### Properties of two instructions -/

/-- 42_stack.md R103: PUSH followed by POP of the same register, neither raising an error, restores the register and the stack
pointer, for every register, register 7 included; every other register keeps its value. For register 7 it rests on decision
D23 (log 14). -/
def Obligations.PushThenPopRestores : Prop :=
  ∀ (reg : Byte) (r : RegIdx) (s t u : State), s.mem.wf = true → s.run = .running → reg.toNat = r.val →
    exec (.push reg) s = .next t → t.run = .running → exec (.pop reg) t = .next u → u.run = .running →
    u.reg r = s.reg r ∧ u.reg 7 = s.reg 7 ∧ ∀ q, u.reg q = s.reg q

/-- 45_control_flow.md R157, first sentence: a RET that finds the stack pointer and the stack cell as the CALL left them
returns to the instruction after the CALL and restores the stack pointer. -/
def Obligations.RetReturnsAfterCall : Prop :=
  ∀ (reg : Byte) (s t u : State), s.mem.wf = true → s.run = .running → s.pc.toNat + 2 ≤ 255 →
    exec (.call reg) s = .next t → t.run = .running →
    u.params = t.params → u.reg 7 = t.reg 7 → u.mem.read (t.reg 7).toNat = t.mem.read (t.reg 7).toNat →
    ∃ v, exec .ret u = .next v ∧ v.pc.toNat = s.pc.toNat + 2 ∧ v.reg 7 = s.reg 7 ∧
      (∀ q, q ≠ 7 → v.reg q = u.reg q) ∧ v.mem = u.mem ∧ v.fl = u.fl ∧ v.run = u.run ∧ v.out = u.out

/-- 20_memory.md R42: the fetch of the very next cycle sees the byte an ST has stored, as opcode or as operand. That ST stores
at all is decision D5 (log 12), and the fetch at pc + 3 is decision D4 (log 4). -/
def Obligations.StoreIsSeenByTheNextFetch : Prop :=
  ∀ (addr val : Byte) (a b : RegIdx) (s t : State) (w : Window), s.mem.wf = true → s.run = .running →
    addr.toNat = a.val → val.toNat = b.val → exec (.st addr val) s = .next t → t.run = .running → fetch t = .ok w →
    ((s.reg a).toNat = t.pc.toNat → w.op = s.reg b) ∧
    ((s.reg a).toNat = t.pc.toNat + 1 → w.opa = s.reg b) ∧
    ((s.reg a).toNat = t.pc.toNat + 2 → w.opb = s.reg b) ∧
    ((s.reg a).toNat = t.pc.toNat + 3 → w.op >>> 6 = 3#8 → w.opc = s.reg b)

/-! ### Memory and output as data -/

/-- Two memories in canonical form that read alike at every address are the same data (20_memory.md R30, R37). -/
def Obligations.CanonicalMemoryIsDeterminedByReads : Prop :=
  ∀ m m' : Memory, m.wf = true → m'.wf = true → (∀ a, m.read a = m'.read a) → m = m'

/-- 43_output.md R113 (decision D16, log 15): the text of Dec(v) is 1 to 3 decimal digits with value v and no leading zero,
then a line break; the text of Chr(v) is the one character with code point v. -/
def Obligations.RenderingOfEvents : Prop :=
  ∀ v : Byte,
    (∃ ds : List Nat, OutEvent.render (.dec v) = (ds.map fun d => Char.ofNat (48 + d)) ++ ['\n'] ∧
      (∀ d ∈ ds, d < 10) ∧ ds.foldl (fun n d => 10 * n + d) 0 = v.toNat ∧ 1 ≤ ds.length ∧ ds.length ≤ 3 ∧
      (ds.head? = some 0 → ds = [0])) ∧
    (∃ c : Char, OutEvent.render (.chr v) = [c] ∧ c.toNat = v.toNat)
end

