-- ==== Sys2Proof/Laws/Decode.lean ====
section
/-! SUPPORT. The dispatcher's lookup and the parts of encoding and decoding. -/

namespace Sys2Proof

/-- Every opcode is a row of the table. -/
theorem Opcode.mem_all (o : Opcode) : o ∈ Opcode.all := by
  cases o <;> decide

/-- The lookup finds only an opcode whose byte is the key (R74). -/
theorem lookupIn_sound {opc : Opcode → Byte} {op : Byte} {o : Opcode} (h : lookupIn opc op = some o) : opc o = op := by
  simpa using List.find?_some h

/-- The lookup fails exactly on a byte that no opcode has (R56, R74). -/
theorem lookupIn_none {opc : Opcode → Byte} {op : Byte} : lookupIn opc op = none ↔ ∀ o, opc o ≠ op := by
  simp [lookupIn, List.find?_eq_none, Opcode.mem_all]

/-- The instruction built for an opcode is a row of that opcode. -/
@[simp] theorem Opcode.build_opcode (o : Opcode) (a b c : Byte) : (o.build a b c).opcode = o := by
  cases o <;> rfl

/-- An instruction has as many operand bytes as its format (R54). -/
theorem Instr.operands_length (i : Instr) : i.operands.length = i.opcode.format.operandCount := by
  cases i <;> rfl

/-- The length the decoder gives an assigned opcode byte is that of the instruction's format (R52, R54). -/
theorem instrLength_opcodeByte (o : Opcode) : instrLength (opcodeByte o) = o.format.operandCount + 1 := by
  cases o <;> decide

/-- The bytes of an instruction are the opcode byte and its operands. -/
theorem encode_length (i : Instr) : (encode i).length = i.opcode.format.operandCount + 1 := by
  simp [encode, encodeIn, Instr.operands_length]

end Sys2Proof
end

