-- ==== Sys2Proof/Laws/State.lean ====
section
/-! SUPPORT. One lemma per field per update of State, so that no later proof unfolds a record update. -/

namespace Sys2Proof.Machine

@[simp] theorem State.setReg_params (s : State) (i : RegIdx) (v : Byte) : (s.setReg i v).params = s.params := rfl
@[simp] theorem State.setReg_regs (s : State) (i : RegIdx) (v : Byte) : (s.setReg i v).regs = s.regs.set i v := rfl
@[simp] theorem State.setReg_pc (s : State) (i : RegIdx) (v : Byte) : (s.setReg i v).pc = s.pc := rfl
@[simp] theorem State.setReg_fl (s : State) (i : RegIdx) (v : Byte) : (s.setReg i v).fl = s.fl := rfl
@[simp] theorem State.setReg_mem (s : State) (i : RegIdx) (v : Byte) : (s.setReg i v).mem = s.mem := rfl
@[simp] theorem State.setReg_run (s : State) (i : RegIdx) (v : Byte) : (s.setReg i v).run = s.run := rfl
@[simp] theorem State.setReg_out (s : State) (i : RegIdx) (v : Byte) : (s.setReg i v).out = s.out := rfl

@[simp] theorem State.setPc_params (s : State) (v : Byte) : (s.setPc v).params = s.params := rfl
@[simp] theorem State.setPc_regs (s : State) (v : Byte) : (s.setPc v).regs = s.regs := rfl
@[simp] theorem State.setPc_pc (s : State) (v : Byte) : (s.setPc v).pc = v := rfl
@[simp] theorem State.setPc_fl (s : State) (v : Byte) : (s.setPc v).fl = s.fl := rfl
@[simp] theorem State.setPc_mem (s : State) (v : Byte) : (s.setPc v).mem = s.mem := rfl
@[simp] theorem State.setPc_run (s : State) (v : Byte) : (s.setPc v).run = s.run := rfl
@[simp] theorem State.setPc_out (s : State) (v : Byte) : (s.setPc v).out = s.out := rfl
@[simp] theorem State.setPc_reg (s : State) (v : Byte) (j : RegIdx) : (s.setPc v).reg j = s.reg j := rfl
@[simp] theorem State.setPc_spDown (s : State) (v : Byte) : (s.setPc v).spDown = s.spDown := rfl
@[simp] theorem State.setPc_spUp (s : State) (v : Byte) : (s.setPc v).spUp = s.spUp := rfl

@[simp] theorem State.emit_params (s : State) (e : OutEvent) : (s.emit e).params = s.params := rfl
@[simp] theorem State.emit_regs (s : State) (e : OutEvent) : (s.emit e).regs = s.regs := rfl
@[simp] theorem State.emit_pc (s : State) (e : OutEvent) : (s.emit e).pc = s.pc := rfl
@[simp] theorem State.emit_fl (s : State) (e : OutEvent) : (s.emit e).fl = s.fl := rfl
@[simp] theorem State.emit_mem (s : State) (e : OutEvent) : (s.emit e).mem = s.mem := rfl
@[simp] theorem State.emit_run (s : State) (e : OutEvent) : (s.emit e).run = s.run := rfl
@[simp] theorem State.emit_out (s : State) (e : OutEvent) : (s.emit e).out = s.out ++ [e] := rfl
@[simp] theorem State.emit_reg (s : State) (e : OutEvent) (j : RegIdx) : (s.emit e).reg j = s.reg j := rfl
@[simp] theorem State.emit_spDown (s : State) (e : OutEvent) : (s.emit e).spDown = s.spDown := rfl
@[simp] theorem State.emit_spUp (s : State) (e : OutEvent) : (s.emit e).spUp = s.spUp := rfl

@[simp] theorem State.setFlags_params (s : State) (f : Flags) : (s.setFlags f).params = s.params := rfl
@[simp] theorem State.setFlags_regs (s : State) (f : Flags) : (s.setFlags f).regs = s.regs := rfl
@[simp] theorem State.setFlags_pc (s : State) (f : Flags) : (s.setFlags f).pc = s.pc := rfl
@[simp] theorem State.setFlags_fl (s : State) (f : Flags) : (s.setFlags f).fl = f := rfl
@[simp] theorem State.setFlags_mem (s : State) (f : Flags) : (s.setFlags f).mem = s.mem := rfl
@[simp] theorem State.setFlags_run (s : State) (f : Flags) : (s.setFlags f).run = s.run := rfl
@[simp] theorem State.setFlags_out (s : State) (f : Flags) : (s.setFlags f).out = s.out := rfl
@[simp] theorem State.setFlags_reg (s : State) (f : Flags) (j : RegIdx) : (s.setFlags f).reg j = s.reg j := rfl
@[simp] theorem State.setFlags_spDown (s : State) (f : Flags) : (s.setFlags f).spDown = s.spDown := rfl
@[simp] theorem State.setFlags_spUp (s : State) (f : Flags) : (s.setFlags f).spUp = s.spUp := rfl

@[simp] theorem State.setMem_params (s : State) (m : Memory) : (s.setMem m).params = s.params := rfl
@[simp] theorem State.setMem_regs (s : State) (m : Memory) : (s.setMem m).regs = s.regs := rfl
@[simp] theorem State.setMem_pc (s : State) (m : Memory) : (s.setMem m).pc = s.pc := rfl
@[simp] theorem State.setMem_fl (s : State) (m : Memory) : (s.setMem m).fl = s.fl := rfl
@[simp] theorem State.setMem_mem (s : State) (m : Memory) : (s.setMem m).mem = m := rfl
@[simp] theorem State.setMem_run (s : State) (m : Memory) : (s.setMem m).run = s.run := rfl
@[simp] theorem State.setMem_out (s : State) (m : Memory) : (s.setMem m).out = s.out := rfl
@[simp] theorem State.setMem_reg (s : State) (m : Memory) (j : RegIdx) : (s.setMem m).reg j = s.reg j := rfl
@[simp] theorem State.setMem_spDown (s : State) (m : Memory) : (s.setMem m).spDown = s.spDown := rfl
@[simp] theorem State.setMem_spUp (s : State) (m : Memory) : (s.setMem m).spUp = s.spUp := rfl

@[simp] theorem State.setRun_params (s : State) (r : RunState) : (s.setRun r).params = s.params := rfl
@[simp] theorem State.setRun_regs (s : State) (r : RunState) : (s.setRun r).regs = s.regs := rfl
@[simp] theorem State.setRun_pc (s : State) (r : RunState) : (s.setRun r).pc = s.pc := rfl
@[simp] theorem State.setRun_fl (s : State) (r : RunState) : (s.setRun r).fl = s.fl := rfl
@[simp] theorem State.setRun_mem (s : State) (r : RunState) : (s.setRun r).mem = s.mem := rfl
@[simp] theorem State.setRun_run (s : State) (r : RunState) : (s.setRun r).run = r := rfl
@[simp] theorem State.setRun_out (s : State) (r : RunState) : (s.setRun r).out = s.out := rfl
@[simp] theorem State.setRun_reg (s : State) (r : RunState) (j : RegIdx) : (s.setRun r).reg j = s.reg j := rfl
@[simp] theorem State.setRun_spDown (s : State) (r : RunState) : (s.setRun r).spDown = s.spDown := rfl
@[simp] theorem State.setRun_spUp (s : State) (r : RunState) : (s.setRun r).spUp = s.spUp := rfl

@[simp] theorem raise_params (s : State) (c : HaltCause) : (raise c s).params = s.params := rfl
@[simp] theorem raise_regs (s : State) (c : HaltCause) : (raise c s).regs = s.regs := rfl
@[simp] theorem raise_pc (s : State) (c : HaltCause) : (raise c s).pc = s.pc := rfl
@[simp] theorem raise_fl (s : State) (c : HaltCause) : (raise c s).fl = s.fl := rfl
@[simp] theorem raise_mem (s : State) (c : HaltCause) : (raise c s).mem = s.mem := rfl
@[simp] theorem raise_run (s : State) (c : HaltCause) : (raise c s).run = .halted c := rfl
@[simp] theorem raise_out (s : State) (c : HaltCause) : (raise c s).out = s.out := rfl
@[simp] theorem raise_reg (s : State) (c : HaltCause) (j : RegIdx) : (raise c s).reg j = s.reg j := rfl
@[simp] theorem raise_spDown (s : State) (c : HaltCause) : (raise c s).spDown = s.spDown := rfl
@[simp] theorem raise_spUp (s : State) (c : HaltCause) : (raise c s).spUp = s.spUp := rfl

/-- The cells of the other registers do not matter to a register's value: what is read is what was written last. -/
theorem State.reg_setReg (s : State) (i j : RegIdx) (v : Byte) :
    (s.setReg i v).reg j = if j = i then v else s.reg j := by
  simp only [State.reg, State.setReg, Fin.getElem_fin, Vector.getElem_set, Fin.ext_iff, eq_comm]

@[simp] theorem State.reg_setReg_self (s : State) (i : RegIdx) (v : Byte) : (s.setReg i v).reg i = v := by
  simp [State.reg_setReg]

@[simp] theorem State.reg_setReg_ne (s : State) {i j : RegIdx} (v : Byte) (h : j ≠ i) :
    (s.setReg i v).reg j = s.reg j := by
  simp [State.reg_setReg, h]

/-- Register files that agree at every index are equal. -/
theorem State.regs_ext {s t : State} (h : ∀ r, s.reg r = t.reg r) : s.regs = t.regs :=
  Vector.ext fun i hi => h ⟨i, hi⟩

/-- The stack pointer's decrement as bit vector subtraction. -/
theorem State.spDown_eq (s : State) : s.spDown = s.reg spIdx - 1#8 := by
  apply BitVec.eq_of_toNat_eq
  have h := (s.reg spIdx).isLt
  simp only [State.spDown, trunc8Int, BitVec.toNat_ofInt, BitVec.toNat_sub, BitVec.toNat_ofNat]
  omega

/-- The stack pointer's increment as bit vector addition. -/
theorem State.spUp_eq (s : State) : s.spUp = s.reg spIdx + 1#8 := by
  simp [State.spUp, trunc8, BitVec.ofNat_add]

end Sys2Proof.Machine
end

