-- ==== Sys2Proof/Laws/Ops.lean ====
section
/-! SUPPORT. One lemma per shared operation that says everything it can do, for later proofs to cite. -/

namespace Sys2Proof.Machine

@[simp] theorem orRaise_ok {α : Type} (s : State) (a : α) (k : α → State) : orRaise s (.ok a) k = k a := rfl

@[simp] theorem orRaise_error {α : Type} (s : State) (c : HaltCause) (k : α → State) :
    orRaise s (.error c) k = raise c s := rfl

/-- Going on with a check or access either runs the continuation or raises the error in the same state. -/
theorem orRaise_cases {α : Type} (s : State) (r : Except HaltCause α) (k : α → State) :
    (∃ a, r = .ok a ∧ orRaise s r k = k a) ∨ (∃ c, r = .error c ∧ orRaise s r k = raise c s) := by
  cases r with
  | ok a => exact .inl ⟨a, rfl, rfl⟩
  | error c => exact .inr ⟨c, rfl, rfl⟩

/-- The register check accepts exactly 0 to 7 (R57). -/
theorem regIndex_ok {b : Byte} {r : RegIdx} : regIndex b = .ok r ↔ b.toNat = r.val := by
  unfold regIndex
  constructor
  · intro h
    split at h
    · injection h with h; simp [← h]
    · cases h
  · intro h
    have : b.toNat < 8 := h ▸ r.isLt
    simp only [this, dif_pos, Except.ok.injEq, Fin.ext_iff]
    exact h

/-- The register check refuses exactly 8 to 255, and records the byte (R57). -/
theorem regIndex_error {b : Byte} {c : HaltCause} :
    regIndex b = .error c ↔ 7 < b.toNat ∧ c = .invalidRegister b := by
  unfold regIndex
  constructor
  · intro h
    split at h
    · cases h
    · injection h with h; exact ⟨by omega, h.symm⟩
  · rintro ⟨hb, rfl⟩
    rw [dif_neg (by omega)]

/-- What a one-register check can do. -/
theorem withReg_cases (a : Byte) (s : State) (k : RegIdx → State) :
    (∃ r : RegIdx, a.toNat = r.val ∧ withReg a s k = k r) ∨
    (7 < a.toNat ∧ withReg a s k = raise (.invalidRegister a) s) := by
  rcases orRaise_cases s (regIndex a) k with ⟨r, hr, hk⟩ | ⟨c, hc, hk⟩
  · exact .inl ⟨r, regIndex_ok.mp hr, hk⟩
  · obtain ⟨h, rfl⟩ := regIndex_error.mp hc
    exact .inr ⟨h, hk⟩

/-- What a two-register check can do. -/
theorem withRegs_cases (a b : Byte) (s : State) (k : RegIdx → RegIdx → State) :
    (∃ ra rb : RegIdx, a.toNat = ra.val ∧ b.toNat = rb.val ∧ withRegs a b s k = k ra rb) ∨
    (7 < a.toNat ∧ withRegs a b s k = raise (.invalidRegister a) s) ∨
    (a.toNat ≤ 7 ∧ 7 < b.toNat ∧ withRegs a b s k = raise (.invalidRegister b) s) := by
  unfold withRegs
  rcases withReg_cases a s (fun ra => withReg b s fun rb => k ra rb) with ⟨ra, ha, hk⟩ | ⟨ha, hk⟩
  · rcases withReg_cases b s (fun rb => k ra rb) with ⟨rb, hb, hk'⟩ | ⟨hb, hk'⟩
    · exact .inl ⟨ra, rb, ha, hb, hk.trans hk'⟩
    · exact .inr (.inr ⟨by omega, hb, hk.trans hk'⟩)
  · exact .inr (.inl ⟨ha, hk⟩)

theorem withReg_of {a : Byte} {r : RegIdx} (h : a.toNat = r.val) (s : State) (k : RegIdx → State) :
    withReg a s k = k r := by
  simp [withReg, regIndex_ok.mpr h]

theorem withRegs_of {a b : Byte} {ra rb : RegIdx} (ha : a.toNat = ra.val) (hb : b.toNat = rb.val) (s : State)
    (k : RegIdx → RegIdx → State) : withRegs a b s k = k ra rb := by
  simp [withRegs, regIndex_ok.mpr ha, regIndex_ok.mpr hb]

/-- A read succeeds exactly inside memory (R31). -/
theorem memRead_ok {s : State} {a : Nat} {v : Byte} :
    memRead s a = .ok v ↔ a < s.params.memSize.toNat ∧ s.mem.read a = v := by
  unfold memRead
  split
  · simp only [reduceCtorEq, false_iff]; omega
  · simp only [Except.ok.injEq]; constructor
    · intro h; exact ⟨by omega, h⟩
    · exact fun h => h.2

/-- A read raises exactly outside memory, with the address (R31). -/
theorem memRead_error {s : State} {a : Nat} {c : HaltCause} :
    memRead s a = .error c ↔ s.params.memSize.toNat ≤ a ∧ c = .addressOutOfRange a := by
  unfold memRead
  split
  · next h => simp only [Except.error.injEq, h, true_and]; exact eq_comm
  · simp only [reduceCtorEq, false_iff]; omega

/-- A write succeeds exactly inside memory and changes only the memory (R32). -/
theorem memWrite_ok {s t : State} {a : Nat} {v : Byte} :
    memWrite s a v = .ok t ↔ a < s.params.memSize.toNat ∧ t = s.setMem (s.mem.write a v) := by
  unfold memWrite
  split
  · simp only [reduceCtorEq, false_iff]; omega
  · simp only [Except.ok.injEq]; constructor
    · intro h; exact ⟨by omega, h.symm⟩
    · exact fun h => h.2.symm

/-- A write raises exactly outside memory, with the address (R32). -/
theorem memWrite_error {s : State} {a : Nat} {v : Byte} {c : HaltCause} :
    memWrite s a v = .error c ↔ s.params.memSize.toNat ≤ a ∧ c = .addressOutOfRange a := by
  unfold memWrite
  split
  · next h => simp only [Except.error.injEq, h, true_and]; exact eq_comm
  · simp only [reduceCtorEq, false_iff]; omega

/-- The advance moves pc by the length, or raises with the sum (R76). -/
theorem advance_cases (n : Nat) (s : State) :
    (s.pc.toNat + n ≤ 255 ∧ advance n s = s.setPc (trunc8 (s.pc.toNat + n))) ∨
    (255 < s.pc.toNat + n ∧ advance n s = raise (.addressOutOfRange (s.pc.toNat + n)) s) := by
  unfold advance
  split
  · next h => exact .inl ⟨h, rfl⟩
  · next h => exact .inr ⟨by omega, rfl⟩

theorem advance_of_le {n : Nat} {s : State} (h : s.pc.toNat + n ≤ 255) :
    advance n s = s.setPc (trunc8 (s.pc.toNat + n)) := by
  simp [advance, h]

@[simp] theorem advance_params (n : Nat) (s : State) : (advance n s).params = s.params := by
  unfold advance; split <;> rfl

@[simp] theorem advance_regs (n : Nat) (s : State) : (advance n s).regs = s.regs := by
  unfold advance; split <;> rfl

@[simp] theorem advance_reg (n : Nat) (s : State) (r : RegIdx) : (advance n s).reg r = s.reg r := by
  unfold advance; split <;> rfl

@[simp] theorem advance_fl (n : Nat) (s : State) : (advance n s).fl = s.fl := by
  unfold advance; split <;> rfl

@[simp] theorem advance_mem (n : Nat) (s : State) : (advance n s).mem = s.mem := by
  unfold advance; split <;> rfl

@[simp] theorem advance_out (n : Nat) (s : State) : (advance n s).out = s.out := by
  unfold advance; split <;> rfl

/-- A push either goes on with the byte stored at the decremented stack pointer, or raises with the decrement standing
(R102, R173). -/
theorem stackPush_cases (v : State → Byte) (s : State) (k : State → State) :
    (s.spDown.toNat < s.params.memSize.toNat ∧ stackPush v s k =
      k ((s.setReg spIdx s.spDown).setMem
        (s.mem.write s.spDown.toNat (v (s.setReg spIdx s.spDown))))) ∨
    (s.params.memSize.toNat ≤ s.spDown.toNat ∧ stackPush v s k =
      raise (.addressOutOfRange s.spDown.toNat) (s.setReg spIdx s.spDown)) := by
  simp only [stackPush]
  rcases orRaise_cases (s.setReg spIdx s.spDown)
      (memWrite (s.setReg spIdx s.spDown) ((s.setReg spIdx s.spDown).reg spIdx).toNat
        (v (s.setReg spIdx s.spDown))) k with ⟨t, ht, hk⟩ | ⟨c, hc, hk⟩
  · obtain ⟨hlt, rfl⟩ := memWrite_ok.mp ht
    rw [State.reg_setReg_self] at hlt
    exact .inl ⟨hlt, hk.trans (by rw [State.reg_setReg_self, State.setReg_mem])⟩
  · obtain ⟨hle, rfl⟩ := memWrite_error.mp hc
    rw [State.reg_setReg_self] at hle
    exact .inr ⟨hle, hk.trans (by rw [State.reg_setReg_self])⟩

/-- Reading the top of the stack succeeds exactly when x[7] addresses a cell (R102). -/
theorem stackTop_ok {s : State} {v : Byte} :
    stackTop s = .ok v ↔ (s.reg spIdx).toNat < s.params.memSize.toNat ∧ s.mem.read (s.reg spIdx).toNat = v :=
  memRead_ok

theorem stackTop_error {s : State} {c : HaltCause} :
    stackTop s = .error c ↔
      s.params.memSize.toNat ≤ (s.reg spIdx).toNat ∧ c = .addressOutOfRange (s.reg spIdx).toNat :=
  memRead_error

/-! ### The same as rules for proving a property of the result -/

theorem withReg_ind {P : State → Prop} {a : Byte} {s : State} {k : RegIdx → State}
    (hk : ∀ r : RegIdx, a.toNat = r.val → P (k r)) (he : 7 < a.toNat → P (raise (.invalidRegister a) s)) :
    P (withReg a s k) := by
  rcases withReg_cases a s k with ⟨r, hr, h⟩ | ⟨ha, h⟩ <;> rw [h]
  · exact hk r hr
  · exact he ha

theorem withRegs_ind {P : State → Prop} {a b : Byte} {s : State} {k : RegIdx → RegIdx → State}
    (hk : ∀ ra rb : RegIdx, a.toNat = ra.val → b.toNat = rb.val → P (k ra rb))
    (ha : 7 < a.toNat → P (raise (.invalidRegister a) s)) (hb : 7 < b.toNat → P (raise (.invalidRegister b) s)) :
    P (withRegs a b s k) := by
  rcases withRegs_cases a b s k with ⟨ra, rb, h1, h2, h⟩ | ⟨h1, h⟩ | ⟨_, h2, h⟩ <;> rw [h]
  · exact hk ra rb h1 h2
  · exact ha h1
  · exact hb h2

theorem memRead_ind {P : State → Prop} {s : State} {a : Nat} {k : Byte → State}
    (hk : a < s.params.memSize.toNat → P (k (s.mem.read a)))
    (he : s.params.memSize.toNat ≤ a → P (raise (.addressOutOfRange a) s)) : P (orRaise s (memRead s a) k) := by
  rcases orRaise_cases s (memRead s a) k with ⟨v, hv, h⟩ | ⟨c, hc, h⟩ <;> rw [h]
  · obtain ⟨hlt, rfl⟩ := memRead_ok.mp hv
    exact hk hlt
  · obtain ⟨hle, rfl⟩ := memRead_error.mp hc
    exact he hle

theorem stackTop_ind {P : State → Prop} {s : State} {k : Byte → State}
    (hk : (s.reg spIdx).toNat < s.params.memSize.toNat → P (k (s.mem.read (s.reg spIdx).toNat)))
    (he : s.params.memSize.toNat ≤ (s.reg spIdx).toNat → P (raise (.addressOutOfRange (s.reg spIdx).toNat) s)) :
    P (orRaise s (stackTop s) k) :=
  memRead_ind hk he

theorem memWrite_ind {P : State → Prop} {s : State} {a : Nat} {v : Byte} {k : State → State}
    (hk : a < s.params.memSize.toNat → P (k (s.setMem (s.mem.write a v))))
    (he : s.params.memSize.toNat ≤ a → P (raise (.addressOutOfRange a) s)) : P (orRaise s (memWrite s a v) k) := by
  rcases orRaise_cases s (memWrite s a v) k with ⟨t, ht, h⟩ | ⟨c, hc, h⟩ <;> rw [h]
  · obtain ⟨hlt, rfl⟩ := memWrite_ok.mp ht
    exact hk hlt
  · obtain ⟨hle, rfl⟩ := memWrite_error.mp hc
    exact he hle

theorem stackPush_ind {P : State → Prop} {v : State → Byte} {s : State} {k : State → State}
    (hk : s.spDown.toNat < s.params.memSize.toNat → P (k ((s.setReg spIdx s.spDown).setMem
      (s.mem.write s.spDown.toNat (v (s.setReg spIdx s.spDown))))))
    (he : s.params.memSize.toNat ≤ s.spDown.toNat →
      P (raise (.addressOutOfRange s.spDown.toNat) (s.setReg spIdx s.spDown))) : P (stackPush v s k) := by
  rcases stackPush_cases v s k with ⟨h1, h⟩ | ⟨h1, h⟩ <;> rw [h]
  · exact hk h1
  · exact he h1

theorem advance_ind {P : State → Prop} {n : Nat} {s : State}
    (hk : s.pc.toNat + n ≤ 255 → P (s.setPc (trunc8 (s.pc.toNat + n))))
    (he : 255 < s.pc.toNat + n → P (raise (.addressOutOfRange (s.pc.toNat + n)) s)) : P (advance n s) := by
  rcases advance_cases n s with ⟨h1, h⟩ | ⟨h1, h⟩ <;> rw [h]
  · exact hk h1
  · exact he h1

@[simp] theorem trunc8_toNat (v : Nat) : (trunc8 v).toNat = v % 256 := by
  simp [trunc8]

@[simp] theorem trunc8Int_toNat (v : Int) : ((trunc8Int v).toNat : Int) = v % 256 := by
  simp [trunc8Int, BitVec.toNat_ofInt]
  omega

/-- A memory size is 255 or 256 (R2). -/
theorem memSize_cases (m : MemSize) : m.toNat = 255 ∨ m.toNat = 256 := by
  cases m
  · exact .inl rfl
  · exact .inr rfl

end Sys2Proof.Machine
end

