-- ==== Sys2Proof/Laws/Fetch.lean ====
section
/-! SUPPORT. What the fetch of a cycle and the step can do. -/

namespace Sys2Proof.Machine

/-- The fetch as one decision: the first address that does not exist is raised (R73). -/
theorem fetch_eq (s : State) :
    fetch s =
      if s.params.memSize.toNat ≤ s.pc.toNat then .error (.addressOutOfRange s.pc.toNat)
      else if s.params.memSize.toNat ≤ s.pc.toNat + 1 then .error (.addressOutOfRange (s.pc.toNat + 1))
      else if s.params.memSize.toNat ≤ s.pc.toNat + 2 then .error (.addressOutOfRange (s.pc.toNat + 2))
      else if operandCount (s.mem.read s.pc.toNat) = 3 then
        if s.params.memSize.toNat ≤ s.pc.toNat + 3 then .error (.addressOutOfRange (s.pc.toNat + 3))
        else .ok ⟨s.mem.read s.pc.toNat, s.mem.read (s.pc.toNat + 1), s.mem.read (s.pc.toNat + 2),
          s.mem.read (s.pc.toNat + 3)⟩
      else .ok ⟨s.mem.read s.pc.toNat, s.mem.read (s.pc.toNat + 1), s.mem.read (s.pc.toNat + 2), 0#8⟩ := by
  simp only [fetch, memRead, bind, Except.bind, pure, Except.pure]
  split_ifs <;> simp_all

/-- A fetch succeeds exactly when every address it reads exists, and it gives the bytes there (R71, R73). -/
theorem fetch_ok {s : State} {w : Window} :
    fetch s = .ok w ↔
      s.pc.toNat + 2 < s.params.memSize.toNat ∧
      w.op = s.mem.read s.pc.toNat ∧ w.opa = s.mem.read (s.pc.toNat + 1) ∧ w.opb = s.mem.read (s.pc.toNat + 2) ∧
      (operandCount w.op = 3 → s.pc.toNat + 3 < s.params.memSize.toNat) ∧
      w.opc = if operandCount w.op = 3 then s.mem.read (s.pc.toNat + 3) else 0#8 := by
  obtain ⟨op, opa, opb, opc⟩ := w
  rw [fetch_eq]
  by_cases h2 : s.pc.toNat + 2 < s.params.memSize.toNat
  · rw [if_neg (by omega), if_neg (by omega), if_neg (by omega)]
    by_cases hn : operandCount (s.mem.read s.pc.toNat) = 3
    · rw [if_pos hn]
      by_cases h3 : s.params.memSize.toNat ≤ s.pc.toNat + 3
      · rw [if_pos h3]
        constructor
        · intro h
          cases h
        · rintro ⟨-, rfl, -, -, h, -⟩
          have := h hn
          omega
      · rw [if_neg h3, Except.ok.injEq, Window.mk.injEq]
        constructor
        · rintro ⟨rfl, rfl, rfl, rfl⟩
          exact ⟨h2, rfl, rfl, rfl, fun _ => by omega, (if_pos hn).symm⟩
        · rintro ⟨-, rfl, rfl, rfl, -, h⟩
          exact ⟨rfl, rfl, rfl, (h.trans (if_pos hn)).symm⟩
    · rw [if_neg hn, Except.ok.injEq, Window.mk.injEq]
      constructor
      · rintro ⟨rfl, rfl, rfl, rfl⟩
        exact ⟨h2, rfl, rfl, rfl, fun h => absurd h hn, (if_neg hn).symm⟩
      · rintro ⟨-, rfl, rfl, rfl, -, h⟩
        exact ⟨rfl, rfl, rfl, (h.trans (if_neg hn)).symm⟩
  · refine ⟨fun h => ?_, fun h => absurd h.1 h2⟩
    split_ifs at h <;> omega

/-- An error of the fetch is an address at or above MEM_SIZE and at most 256 (R166). -/
theorem fetch_error {s : State} {c : HaltCause} (h : fetch s = .error c) :
    ∃ a, c = .addressOutOfRange a ∧ s.params.memSize.toNat ≤ a ∧ a ≤ 256 := by
  have hpc := s.pc.isLt
  have hm := memSize_cases s.params.memSize
  rw [fetch_eq] at h
  split_ifs at h <;> injection h with h <;> exact ⟨_, h.symm, by omega, by omega⟩

/-- A step is taken in Running only, and is a cycle (R70). -/
theorem step_running {s : State} (h : s.run = .running) : step s = cycle s := by
  simp [step, h]

theorem running_of_step {s t : State} (h : step s = .next t) : s.run = .running ∧ cycle s = .next t := by
  unfold step at h
  split at h
  · cases h
  · cases h
  · next hr => exact ⟨hr, h⟩

/-- What a cycle can do (R81): raise an error of the fetch, raise UnknownOpcode, or run the decoded instruction. -/
theorem cycle_cases (s : State) :
    (∃ c, fetch s = .error c ∧ cycle s = .next (raise c s)) ∨
    (∃ w op, fetch s = .ok w ∧ decode w = .error (.unknownOpcode op) ∧ cycle s = .next (raise (.unknownOpcode op) s)) ∨
    (∃ w i, fetch s = .ok w ∧ decode w = .ok i ∧ cycle s = exec i s) := by
  unfold cycle
  cases hf : fetch s with
  | error c => exact .inl ⟨c, rfl, rfl⟩
  | ok w =>
    cases hd : decode w with
    | error e => cases e with | unknownOpcode op => exact .inr (.inl ⟨w, op, rfl, hd, by simp [hd]⟩)
    | ok i => exact .inr (.inr ⟨w, i, rfl, hd, by simp [hd]⟩)

end Sys2Proof.Machine
end

