-- ==== Sys2Proof/Laws/PerInstr.lean ====
section
/-! SUPPORT. Families of statements about every instruction as syntax, one lemma per constructor. -/

namespace Sys2Proof.Laws.EncodedLength

/-- The decoder's length of the opcode byte is the number of bytes the instruction encodes to (30_encoding.md R52). -/
def Statement (i : Instr) : Prop := (encode i).length = instrLength (opcodeByte i.opcode)

theorem nop : Statement .nop := (encode_length _).trans (instrLength_opcodeByte _).symm
theorem hlt : Statement .hlt := (encode_length _).trans (instrLength_opcodeByte _).symm
theorem ldi (reg imm : Byte) : Statement (.ldi reg imm) := (encode_length _).trans (instrLength_opcodeByte _).symm
theorem ld (dst src : Byte) : Statement (.ld dst src) := (encode_length _).trans (instrLength_opcodeByte _).symm
theorem st (addr val : Byte) : Statement (.st addr val) := (encode_length _).trans (instrLength_opcodeByte _).symm
theorem push (reg : Byte) : Statement (.push reg) := (encode_length _).trans (instrLength_opcodeByte _).symm
theorem pop (reg : Byte) : Statement (.pop reg) := (encode_length _).trans (instrLength_opcodeByte _).symm
theorem prn (reg : Byte) : Statement (.prn reg) := (encode_length _).trans (instrLength_opcodeByte _).symm
theorem pra (reg : Byte) : Statement (.pra reg) := (encode_length _).trans (instrLength_opcodeByte _).symm
theorem add (a b : Byte) : Statement (.add a b) := (encode_length _).trans (instrLength_opcodeByte _).symm
theorem sub (a b : Byte) : Statement (.sub a b) := (encode_length _).trans (instrLength_opcodeByte _).symm
theorem mul (a b : Byte) : Statement (.mul a b) := (encode_length _).trans (instrLength_opcodeByte _).symm
theorem div (a b : Byte) : Statement (.div a b) := (encode_length _).trans (instrLength_opcodeByte _).symm
theorem mod (a b : Byte) : Statement (.mod a b) := (encode_length _).trans (instrLength_opcodeByte _).symm
theorem cmp (a b : Byte) : Statement (.cmp a b) := (encode_length _).trans (instrLength_opcodeByte _).symm
theorem and (a b : Byte) : Statement (.and a b) := (encode_length _).trans (instrLength_opcodeByte _).symm
theorem or (a b : Byte) : Statement (.or a b) := (encode_length _).trans (instrLength_opcodeByte _).symm
theorem xor (a b : Byte) : Statement (.xor a b) := (encode_length _).trans (instrLength_opcodeByte _).symm
theorem shl (a b : Byte) : Statement (.shl a b) := (encode_length _).trans (instrLength_opcodeByte _).symm
theorem shr (a b : Byte) : Statement (.shr a b) := (encode_length _).trans (instrLength_opcodeByte _).symm
theorem not (a : Byte) : Statement (.not a) := (encode_length _).trans (instrLength_opcodeByte _).symm
theorem inc (reg : Byte) : Statement (.inc reg) := (encode_length _).trans (instrLength_opcodeByte _).symm
theorem dec (reg : Byte) : Statement (.dec reg) := (encode_length _).trans (instrLength_opcodeByte _).symm
theorem addi (dst src imm : Byte) : Statement (.addi dst src imm) := (encode_length _).trans (instrLength_opcodeByte _).symm
theorem call (reg : Byte) : Statement (.call reg) := (encode_length _).trans (instrLength_opcodeByte _).symm
theorem ret : Statement .ret := (encode_length _).trans (instrLength_opcodeByte _).symm
theorem jmp (reg : Byte) : Statement (.jmp reg) := (encode_length _).trans (instrLength_opcodeByte _).symm
theorem jeq (reg : Byte) : Statement (.jeq reg) := (encode_length _).trans (instrLength_opcodeByte _).symm
theorem jne (reg : Byte) : Statement (.jne reg) := (encode_length _).trans (instrLength_opcodeByte _).symm

end Sys2Proof.Laws.EncodedLength
end

