-- ==== Sys2Proof/Tests/Slice0.lean ====
section
/-! SUPPORT. The model's own tests: ill-formed instructions refused, one written-out word of every instruction decoded, one
step of every instruction against the vectors of 95_test_vectors.md (hand-derived there from the rules), and a witness
for the hypotheses of every statement that has some. -/

namespace Sys2Proof.Tests

open Sys2Proof.Machine

/-- The next state of an outcome. -/
def after (o : Host.Outcome State Fault Refusal) : Option State :=
  match o with
  | .next s => some s
  | .fault _ => none
  | .refused _ => none

theorem next_of_after {o : Host.Outcome State Fault Refusal} {t : State} (h : after o = some t) : o = .next t := by
  cases o with
  | next s => exact congrArg _ (Option.some.inj h)
  | fault _ => cases h
  | refused _ => cases h

/-- A running machine with registers 0 to 2 and 7, no flag set, and memory empty but for the bytes given from pc on. -/
def start (m : MemSize) (pc r0 r1 r2 sp : Byte) (bytes : List Byte) : State where
  params := { memSize := m, spInit := 0xF4#8 }
  regs := #v[r0, r1, r2, 0#8, 0#8, 0#8, 0#8, sp]
  pc := pc
  fl := { e := false, g := false, l := false }
  mem := Memory.writeAll [] pc.toNat bytes
  run := .running
  out := []

/-- One step from `start` with MEM_SIZE = 255, seen through `f`. -/
def see {α : Type} (f : State → α) (s : State) : Option α := (after (step s)).map f

/-- The start of a two-register vector: x[0] = a, x[1] = b, `<op> R0,R1` at 0. -/
def two (op a b : Byte) : State := start .cells255 0 a b 0 0xF4 [op, 0, 1]

/-- The three flags in the order E G L. -/
def egl (s : State) : Bool × Bool × Bool := (s.fl.e, s.fl.g, s.fl.l)

/-! ### Well-formedness -/

theorem test_wf_refuses_first_operand : Instr.check (.ldi 8#8 1#8) = .error (.registerOperand 8#8) := by decide

theorem test_wf_refuses_second_operand : Instr.check (.add 7#8 9#8) = .error (.registerOperand 9#8) := by decide

theorem test_wf_refuses_ill_formed : ¬ Instr.WellFormed (.jeq 255#8) := by decide

theorem test_wf_accepts : Instr.WellFormed (.addi 7#8 0#8 255#8) ∧ Instr.check (.addi 7#8 0#8 255#8) = .ok () := by decide

/-! ### Decoding: words written out from the binary column of 30_encoding.md R55 and the formats of R54 -/

theorem test_decode_nop : (decode ⟨0b00000000#8, 0#8, 0#8, 0#8⟩).toOption = some .nop := by decide

theorem test_decode_hlt : (decode ⟨0b00000001#8, 0#8, 0#8, 0#8⟩).toOption = some .hlt := by decide

theorem test_decode_ldi : (decode ⟨0b10000010#8, 0b00000101#8, 0b11001010#8, 0#8⟩).toOption = some (.ldi 5#8 202#8) := by decide

theorem test_decode_ld : (decode ⟨0b10000011#8, 0b00000010#8, 0b00000001#8, 0#8⟩).toOption = some (.ld 2#8 1#8) := by decide

theorem test_decode_st : (decode ⟨0b10000100#8, 0b00000011#8, 0b00000100#8, 0#8⟩).toOption = some (.st 3#8 4#8) := by decide

theorem test_decode_push : (decode ⟨0b01000101#8, 0b00000110#8, 0#8, 0#8⟩).toOption = some (.push 6#8) := by decide

theorem test_decode_pop : (decode ⟨0b01000110#8, 0b00000111#8, 0#8, 0#8⟩).toOption = some (.pop 7#8) := by decide

theorem test_decode_prn : (decode ⟨0b01000111#8, 0b00000001#8, 0#8, 0#8⟩).toOption = some (.prn 1#8) := by decide

theorem test_decode_pra : (decode ⟨0b01001000#8, 0b00000010#8, 0#8, 0#8⟩).toOption = some (.pra 2#8) := by decide

theorem test_decode_add : (decode ⟨0b10100000#8, 0b00000011#8, 0b00000101#8, 0#8⟩).toOption = some (.add 3#8 5#8) := by decide

theorem test_decode_sub : (decode ⟨0b10100001#8, 0b00000001#8, 0b00000110#8, 0#8⟩).toOption = some (.sub 1#8 6#8) := by decide

theorem test_decode_mul : (decode ⟨0b10100010#8, 0b00000010#8, 0b00000111#8, 0#8⟩).toOption = some (.mul 2#8 7#8) := by decide

theorem test_decode_div : (decode ⟨0b10100011#8, 0b00000100#8, 0b00000011#8, 0#8⟩).toOption = some (.div 4#8 3#8) := by decide

theorem test_decode_mod : (decode ⟨0b10100100#8, 0b00000101#8, 0b00000010#8, 0#8⟩).toOption = some (.mod 5#8 2#8) := by decide

theorem test_decode_cmp : (decode ⟨0b10100111#8, 0b00000110#8, 0b00000001#8, 0#8⟩).toOption = some (.cmp 6#8 1#8) := by decide

theorem test_decode_and : (decode ⟨0b10101000#8, 0b00000111#8, 0b00000100#8, 0#8⟩).toOption = some (.and 7#8 4#8) := by decide

theorem test_decode_or : (decode ⟨0b10101010#8, 0b00000001#8, 0b00000011#8, 0#8⟩).toOption = some (.or 1#8 3#8) := by decide

theorem test_decode_xor : (decode ⟨0b10101011#8, 0b00000010#8, 0b00000101#8, 0#8⟩).toOption = some (.xor 2#8 5#8) := by decide

theorem test_decode_shl : (decode ⟨0b10101100#8, 0b00000011#8, 0b00000110#8, 0#8⟩).toOption = some (.shl 3#8 6#8) := by decide

theorem test_decode_shr : (decode ⟨0b10101101#8, 0b00000100#8, 0b00000111#8, 0#8⟩).toOption = some (.shr 4#8 7#8) := by decide

theorem test_decode_not : (decode ⟨0b01101001#8, 0b00000101#8, 0#8, 0#8⟩).toOption = some (.not 5#8) := by decide

theorem test_decode_inc : (decode ⟨0b01100101#8, 0b00000110#8, 0#8, 0#8⟩).toOption = some (.inc 6#8) := by decide

theorem test_decode_dec : (decode ⟨0b01100110#8, 0b00000011#8, 0#8, 0#8⟩).toOption = some (.dec 3#8) := by decide

theorem test_decode_addi : (decode ⟨0b11100000#8, 0b00000001#8, 0b00000110#8, 0b10000001#8⟩).toOption = some (.addi 1#8 6#8 129#8) := by decide

theorem test_decode_call : (decode ⟨0b01010000#8, 0b00000100#8, 0#8, 0#8⟩).toOption = some (.call 4#8) := by decide

theorem test_decode_ret : (decode ⟨0b00010001#8, 0#8, 0#8, 0#8⟩).toOption = some .ret := by decide

theorem test_decode_jmp : (decode ⟨0b01010100#8, 0b00000101#8, 0#8, 0#8⟩).toOption = some (.jmp 5#8) := by decide

theorem test_decode_jeq : (decode ⟨0b01010101#8, 0b00000010#8, 0#8, 0#8⟩).toOption = some (.jeq 2#8) := by decide

theorem test_decode_jne : (decode ⟨0b01010110#8, 0b00000011#8, 0#8, 0#8⟩).toOption = some (.jne 3#8) := by decide

theorem test_decode_refuses_unassigned : lookup 0b01010111#8 = none ∧ lookup 0b11111111#8 = none := by decide

theorem test_decode_table_word : decodeTableWord 24 0x0100A0 = some (.add 0#8 1#8) ∧
    decodeTableWord 8 0xFFFFFF11 = some .ret ∧ decodeTableWord 8 0x52 = none := by decide

theorem test_encode_ldi : encode (.ldi 0#8 5#8) = [0x82#8, 0x00#8, 0x05#8] := by decide

theorem test_encode_addi : encode (.addi 0#8 1#8 10#8) = [0xE0#8, 0x00#8, 0x01#8, 0x0A#8] := by decide

/-! ### One step of each instruction (95_test_vectors.md section 2) -/

/-- X2. -/
theorem test_nop_x2 :
    see (fun t => (t.pc, t.run)) (start .cells255 4 0 0 0 0xF4 [0x00]) = some (5, .running) := by decide

/-- X3. -/
theorem test_hlt_x3 :
    see (fun t => (t.pc, t.run)) (start .cells255 11 0 0 0 0xF4 [0x01]) = some (12, .halted .hlt) := by decide

/-- X7. -/
theorem test_hlt_x7_operand_read_faults :
    see (fun t => (t.pc, t.run)) (start .cells255 253 0 0 0 0xF4 [0x01]) = some (253, .halted (.addressOutOfRange 255)) := by decide

/-- L2. -/
theorem test_ldi_l2 :
    see (fun t => (t.reg 7, t.pc)) (start .cells255 0 0 0 0 0xF4 [0x82, 0x07, 0x80]) = some (0x80, 3) := by decide

/-- X11. -/
theorem test_ldi_x11_advance_past_top :
    see (fun t => (t.reg 0, t.pc, t.run)) (start .cells256 253 0 0 0 0xF4 [0x82, 0x00, 0x01]) = some (1, 253, .halted (.addressOutOfRange 256)) := by decide

/-- L5, with the cell at address 6. -/
theorem test_ld_l5_same_register :
    see (fun t => t.reg 0) (start .cells255 0 0x06 0 0 0xF4 [0x83, 0x00, 0x00, 0, 0, 0, 0x99]) = some 0x99 := by decide

/-- L8. -/
theorem test_ld_l8 :
    see (fun t => (t.reg 1, t.pc, t.run)) (start .cells255 0 255 7 0 0xF4 [0x83, 0x01, 0x00]) = some (7, 0, .halted (.addressOutOfRange 255)) := by decide

/-- L6. -/
theorem test_st_l6 :
    see (fun t => (t.mem.read 0x80, t.mem.read 0x2A, t.pc)) (start .cells255 0 0x80 0x2A 0 0xF4 [0x84, 0x00, 0x01]) = some (0x2A, 0, 3) := by decide

/-- L10. -/
theorem test_st_l10 :
    see (fun t => (t.mem.read 255, t.run)) (start .cells256 0 255 7 0 0xF4 [0x84, 0x00, 0x01]) = some (7, .running) := by decide

/-- K3. -/
theorem test_push_k3 :
    see (fun t => (t.reg 7, t.mem.read 0xF3, t.pc)) (start .cells255 0 0 0 0 0xF4 [0x45, 0x07]) = some (0xF3, 0xF3, 2) := by decide

/-- K6. -/
theorem test_push_k6 :
    see (fun t => (t.reg 7, t.pc, t.run)) (start .cells255 0 0x77 0 0 0 [0x45, 0x00]) = some (255, 0, .halted (.addressOutOfRange 255)) := by decide

/-- K4, with the stack at 6. -/
theorem test_pop_k4 :
    see (fun t => t.reg 7) (start .cells255 0 0 0 0 6 [0x46, 0x07, 0, 0, 0, 0, 0x20]) = some 0x21 := by decide

/-- K9. -/
theorem test_pop_k9 :
    see (fun t => (t.reg 0, t.reg 7)) (start .cells256 250 0 0 0 255 [0x46, 0x00, 0, 0, 0, 9]) = some (9, 0) := by decide

/-- O3. -/
theorem test_prn_o3 :
    see (fun t => (t.out, t.pc)) (start .cells255 0 255 0 0 0xF4 [0x47, 0x00]) = some ([.dec 255], 2) := by decide

/-- O3. -/
theorem test_prn_o3_text :
    OutEvent.render (.dec 255) = ['2', '5', '5', '\n'] := by decide

/-- O4. -/
theorem test_pra_o4 :
    see (fun t => t.out) (start .cells255 0 0 0 0x2A 0xF4 [0x48, 0x02]) = some [.chr 42] := by decide

/-- O4. -/
theorem test_pra_o4_text :
    OutEvent.render (.chr 42) = ['*'] := by decide

/-- 2.1. -/
theorem test_add_200_100 :
    see (fun t => (t.reg 0, t.reg 1, t.pc)) (two 0xA0 200 100) = some (44, 100, 3) := by decide

/-- 2.1. -/
theorem test_sub_5_10 :
    see (fun t => (t.reg 0, t.reg 1, t.pc)) (two 0xA1 5 10) = some (251, 10, 3) := by decide

/-- 2.1. -/
theorem test_mul_255_255 :
    see (fun t => (t.reg 0, t.reg 1, t.pc)) (two 0xA2 255 255) = some (1, 255, 3) := by decide

/-- 2.1. -/
theorem test_div_255_2 :
    see (fun t => (t.reg 0, t.reg 1, t.pc)) (two 0xA3 255 2) = some (127, 2, 3) := by decide

/-- 2.1. -/
theorem test_mod_255_16 :
    see (fun t => (t.reg 0, t.reg 1, t.pc)) (two 0xA4 255 16) = some (15, 16, 3) := by decide

/-- 2.1. -/
theorem test_and_0xcc_0xaa :
    see (fun t => (t.reg 0, t.reg 1, t.pc)) (two 0xA8 0xCC 0xAA) = some (0x88, 0xAA, 3) := by decide

/-- 2.1. -/
theorem test_or_0xcc_0xaa :
    see (fun t => (t.reg 0, t.reg 1, t.pc)) (two 0xAA 0xCC 0xAA) = some (0xEE, 0xAA, 3) := by decide

/-- 2.1. -/
theorem test_xor_0xcc_0xaa :
    see (fun t => (t.reg 0, t.reg 1, t.pc)) (two 0xAB 0xCC 0xAA) = some (0x66, 0xAA, 3) := by decide

/-- 2.1. -/
theorem test_shl_0x81_1 :
    see (fun t => (t.reg 0, t.reg 1, t.pc)) (two 0xAC 0x81 1) = some (2, 1, 3) := by decide

/-- 2.1. -/
theorem test_shr_0x81_1 :
    see (fun t => (t.reg 0, t.reg 1, t.pc)) (two 0xAD 0x81 1) = some (0x40, 1, 3) := by decide

/-- 2.1, v = 200. -/
theorem test_add_same_register :
    see (fun t => t.reg 0) (start .cells255 0 200 0 0 0xF4 [0xA0, 0x00, 0x00]) = some 144 := by decide

/-- 2.1. -/
theorem test_div_by_zero :
    see (fun t => (t.reg 0, t.pc, t.run)) (two 0xA3 5 0) = some (5, 0, .halted (.divideByZero 0xA3)) := by decide

/-- 2.1, S4. -/
theorem test_mod_by_zero :
    see (fun t => (t.reg 0, t.pc, t.run)) (two 0xA4 5 0) = some (5, 0, .halted (.divideByZero 0xA4)) := by decide

/-- 2.1. -/
theorem test_shl_count_255 :
    see (fun t => t.reg 0) (two 0xAC 0xFF 255) = some 0 := by decide

/-- 2.1. -/
theorem test_shr_count_8 :
    see (fun t => t.reg 0) (two 0xAD 0x80 8) = some 0 := by decide

/-- 2.1. -/
theorem test_cmp_unsigned :
    see egl (two 0xA7 0 255) = some (false, false, true) := by decide

/-- 2.1. -/
theorem test_cmp_overwrites :
    see egl ((two 0xA7 3 5).setFlags { e := true, g := false, l := false }) = some (false, false, true) := by decide

/-- 2.2. -/
theorem test_not_cc :
    see (fun t => (t.reg 0, t.pc)) (start .cells255 0 0xCC 0 0 0xF4 [0x69, 0x00]) = some (0x33, 2) := by decide

/-- 2.2. -/
theorem test_inc_255 :
    see (fun t => t.reg 0) (start .cells255 0 255 0 0 0xF4 [0x65, 0x00]) = some 0 := by decide

/-- 2.2. -/
theorem test_dec_0 :
    see (fun t => t.reg 0) (start .cells255 0 0 0 0 0xF4 [0x66, 0x00]) = some 255 := by decide

/-- 2.2. -/
theorem test_addi_250_10 :
    see (fun t => (t.reg 0, t.reg 1, t.pc)) (start .cells255 0 0 250 0 0xF4 [0xE0, 0x00, 0x01, 0x0A]) = some (4, 250, 4) := by decide

/-- 2.2. -/
theorem test_addi_in_place :
    see (fun t => t.reg 1) (start .cells255 0 0 7 0 0xF4 [0xE0, 0x01, 0x01, 0x05]) = some 12 := by decide

/-- J1. -/
theorem test_call_j1 :
    see (fun t => (t.reg 7, t.mem.read 0xF3, t.pc)) (start .cells255 6 0 0x0B 0 0xF4 [0x50, 0x01]) = some (0xF3, 8, 0x0B) := by decide

/-- J3. -/
theorem test_call_j3 :
    see (fun t => (t.reg 7, t.mem.read 0xF3, t.pc)) (start .cells255 0 0 0 0 0xF4 [0x50, 0x07]) = some (0xF3, 2, 0xF3) := by decide

/-- J2, with the stack at 5. -/
theorem test_ret_j2 :
    see (fun t => (t.pc, t.reg 7)) (start .cells255 0 0 0 0 5 [0x11, 0, 0, 0, 0, 8]) = some (8, 6) := by decide

/-- J4. -/
theorem test_jmp_j4 :
    see (fun t => t.pc) (start .cells255 0 0 0 9 0xF4 [0x54, 0x02]) = some 9 := by decide

/-- J12. -/
theorem test_jmp_j12 :
    see (fun t => (t.pc, t.run)) (start .cells255 0 255 0 0 0xF4 [0x54, 0x00]) = some (255, .running) := by decide

/-- J6. -/
theorem test_jeq_j6_taken :
    see (fun t => t.pc) ((start .cells255 0x10 0 0 0x20 0xF4 [0x55, 0x02]).setFlags { e := true, g := false, l := false }) = some 0x20 := by decide

/-- J14. -/
theorem test_jeq_j14_invalid_register :
    see (fun t => (t.pc, t.run)) ((start .cells255 0 0 0 0 0xF4 [0x55, 0x09]).setFlags { e := true, g := false, l := false }) = some (0, .halted (.invalidRegister 9)) := by decide

/-- J9. -/
theorem test_jne_j9_not_taken :
    see (fun t => t.pc) ((start .cells255 0x10 0 0 0x20 0xF4 [0x56, 0x02]).setFlags { e := true, g := false, l := false }) = some 0x12 := by decide

/-- J11. -/
theorem test_jne_j11_taken :
    see (fun t => t.pc) (start .cells255 3 0x10 0 0 0xF4 [0x56, 0x00]) = some 0x10 := by decide

/-- X1. -/
theorem test_unknown_opcode_x1 :
    see (fun t => (t.pc, t.reg 0, t.run)) (start .cells255 3 1 0 0 0xF4 [0x57, 0x00, 0x01]) = some (3, 1, .halted (.unknownOpcode 0x57)) := by decide

/-- X12. -/
theorem test_fetch_before_lookup_x12 :
    see (fun t => t.run) (start .cells255 253 0 0 0 0xF4 [0xFF]) = some (.halted (.addressOutOfRange 255)) := by decide

/-- X14. -/
theorem test_third_operand_read_x14 :
    see (fun t => t.run) (start .cells255 252 0 0 0 0xF4 [0xFF]) = some (.halted (.addressOutOfRange 255)) := by decide

/-- X15. -/
theorem test_invalid_second_register_x15 :
    see (fun t => (t.pc, t.run)) (start .cells255 0 0 0 0 0xF4 [0xA0, 0x00, 0x09]) = some (0, .halted (.invalidRegister 9)) := by decide

/-- L1, through withFetchWord. -/
theorem test_reset_word_runs :
    see (fun t => (t.reg 0, t.pc, t.run)) (State.reset.withFetchWord 24 0x050082) = some (5, 3, .running) := by decide

/-- R70. -/
theorem test_ready_has_no_step :
    after (step State.reset) = none := by decide

/-- R17, 0b00000LGE. -/
theorem test_flags_byte :
    Flags.toByte { e := true, g := false, l := true } = 0b00000101#8 := by decide

/-- R191. -/
theorem test_launch_runs_first_byte :
    (after (launch Params.default [0x01])).bind (see (fun t => t.run)) = some (.halted .hlt) := by decide

/-! ### Witnesses: for each statement with hypotheses, states and operands that meet them together -/

/-- A halted machine. -/
def halted : State := State.reset.setRun (.halted .hlt)

/-- R0 = 255, R1 = 0, R2 = 7, SP = 0, MEM_SIZE = 255, and the given bytes at pc. -/
def edge (pc : Byte) (bytes : List Byte) : State := start .cells255 pc 255 0 7 0 bytes

/-- The table with another legal byte for ADDI. -/
def otherTable (o : Opcode) : Byte := if o = .addi then 0xC1#8 else opcodeByte o

theorem inv_start : (start .cells255 252 254 9 2 0xF4 [0x84, 0, 1]).Inv :=
  ⟨by decide, by decide, by unfold Memory.Below; decide, by decide, trivial⟩

theorem witness_ResetMeetsInvariant :
    Params.Legal { memSize := .cells255, spInit := 1 } ∧ Params.Legal { memSize := .cells255, spInit := 254 } ∧
      Params.Legal { memSize := .cells256, spInit := 255 } := by decide

theorem witness_HostResetAloneLeavesHalted : halted.run = .halted .hlt := by decide

theorem witness_StartOnlyFromReady : State.reset.run = .ready ∧ halted.run ≠ .ready := by decide

theorem witness_LoadWritesProgramFromZero_longest :
    State.reset.mem.wf = true ∧ State.reset.run = .ready ∧
      (List.replicate 255 1#8).length ≤ State.reset.params.memSize.toNat :=
  ⟨rfl, rfl, List.length_replicate.le⟩

theorem witness_LoadWritesProgramFromZero_too_long :
    State.reset.mem.wf = true ∧ State.reset.run = .ready ∧
      State.reset.params.memSize.toNat < (List.replicate 256 1#8).length :=
  ⟨rfl, rfl, List.length_replicate.symm ▸ by decide⟩

theorem witness_LoadWritesProgramFromZero_not_ready : halted.mem.wf = true ∧ halted.run ≠ .ready := by decide

theorem witness_LaunchStartsProgramAtZero :
    (List.replicate 255 1#8).length ≤ Params.default.memSize.toNat := List.length_replicate.le

theorem witness_StepsOnlyWhileRunning : halted.run ≠ .running ∧ (edge 0 []).run = .running := by decide

theorem witness_StepOutsideRunningIsNamedFault : State.reset.run = .ready ∧ halted.run = .halted .hlt := by decide

theorem witness_StepRunsTheDecodedInstruction_top :
    let s := start .cells255 251 0 0 0 0 [0xE0, 1, 6, 129]
    let w : Window := ⟨0xE0#8, 1#8, 6#8, 129#8⟩
    s.run = .running ∧ s.pc.toNat + 2 < s.params.memSize.toNat ∧
      w.op = s.mem.read s.pc.toNat ∧ w.opa = s.mem.read (s.pc.toNat + 1) ∧ w.opb = s.mem.read (s.pc.toNat + 2) ∧
      (w.op >>> 6 = 3#8 → s.pc.toNat + 3 < s.params.memSize.toNat ∧ w.opc = s.mem.read (s.pc.toNat + 3)) ∧
      decode w = .ok (.addi 1#8 6#8 129#8) := by
  refine ⟨?_, ?_, ?_, ?_, ?_, ?_, rfl⟩ <;> decide

theorem witness_StepRunsTheDecodedInstruction_short :
    let s := start .cells255 252 0 0 0 0 [0x01]
    let w : Window := ⟨0x01#8, 0#8, 0#8, 0xAA#8⟩
    s.run = .running ∧ s.pc.toNat + 2 < s.params.memSize.toNat ∧
      w.op = s.mem.read s.pc.toNat ∧ w.opa = s.mem.read (s.pc.toNat + 1) ∧ w.opb = s.mem.read (s.pc.toNat + 2) ∧
      (w.op >>> 6 = 3#8 → s.pc.toNat + 3 < s.params.memSize.toNat ∧ w.opc = s.mem.read (s.pc.toNat + 3)) ∧
      decode w = .ok .hlt := by
  refine ⟨?_, ?_, ?_, ?_, ?_, ?_, rfl⟩ <;> decide

theorem witness_FetchRaisesFirstMissingAddress :
    (edge 255 []).params.memSize.toNat ≤ (edge 255 []).pc.toNat ∧
      (edge 254 []).params.memSize.toNat = (edge 254 []).pc.toNat + 1 ∧
      (edge 253 []).params.memSize.toNat = (edge 253 []).pc.toNat + 2 ∧
      (let s := edge 252 [0xC0]; s.params.memSize.toNat = s.pc.toNat + 3 ∧ s.mem.read s.pc.toNat >>> 6 = 3#8) ∧
      (∀ pc b, (edge pc b).run = .running) :=
  ⟨by decide, by decide, by decide, by decide, fun _ _ => rfl⟩

theorem witness_UnassignedOpcodeHalts :
    (edge 252 [0x57, 1, 2]).run = .running ∧ fetch (edge 252 [0x57, 1, 2]) = .ok ⟨0x57#8, 1#8, 2#8, 0#8⟩ ∧
      ∀ o, opcodeByte o ≠ 0x57#8 :=
  ⟨rfl, rfl, lookupIn_none.mp (by decide)⟩

theorem witness_RegisterByteAboveSevenHalts :
    (Instr.addi 8#8 9#8 255#8).registerOperands = [] ++ 8#8 :: [9#8] ∧
      (Instr.addi 7#8 255#8 255#8).registerOperands = [7#8] ++ 255#8 :: [] ∧
      (∀ c ∈ [7#8], c.toNat ≤ 7) ∧ 7 < (8#8).toNat ∧ 7 < (255#8).toNat := by decide

theorem witness_DivideByZeroHalts :
    (0#8).toNat = (0 : RegIdx).val ∧ (1#8).toNat = (1 : RegIdx).val ∧ (edge 0 []).reg 1 = 0#8 ∧
      (edge 0 []).run = .running ∧
      ∃ t, exec (.mod 0#8 1#8) (edge 0 []) = .next t ∧ t.run = .halted (.divideByZero 0xA4#8) :=
  ⟨rfl, rfl, by decide, rfl, _, rfl, by decide⟩

theorem witness_DataAccessOutsideMemoryHalts :
    (0#8).toNat = (0 : RegIdx).val ∧ (edge 0 []).params.memSize.toNat ≤ ((edge 0 []).reg 0).toNat ∧
      (start .cells255 0 0 0 0 255 []).params.memSize.toNat ≤ ((start .cells255 0 0 0 0 255 []).reg 7).toNat ∧
      (edge 0 []).params.memSize = .cells255 ∧ (edge 0 []).reg 7 = 0#8 := by decide

theorem witness_AdvancePastTopHaltsAfterEffect :
    let s := start .cells256 253 0 0 0 0 [0x82, 0, 1]
    (Instr.ldi 0#8 1#8).opcode.selfAdvancing = false ∧ s.pc.toNat + instrLength (opcodeByte .ldi) = 256 ∧
      ∃ u, exec (.ldi 0#8 1#8) (s.setPc 0#8) = .next u ∧ u.pc ≠ 0#8 :=
  ⟨rfl, by decide, _, rfl, by decide⟩

theorem witness_FatalErrorKeepsEarlierState_advance :
    ∃ t, step (start .cells256 253 0 0 0 0 [0x82, 0, 1]) = .next t ∧ t.run = .halted (.addressOutOfRange 256) :=
  ⟨_, rfl, by decide⟩

theorem witness_FatalErrorKeepsEarlierState_push :
    ∃ t, step (edge 0 [0x45, 2]) = .next t ∧ t.run = .halted (.addressOutOfRange 255) ∧ t.reg 7 ≠ (edge 0 []).reg 7 :=
  ⟨_, rfl, by decide, by decide⟩

theorem witness_FatalErrorKeepsEarlierState_unchanged :
    ∃ t, step (edge 0 [0xA3, 0, 1]) = .next t ∧ t.run = .halted (.divideByZero 0xA3#8) :=
  ⟨_, rfl, by decide⟩

/-- A step of a running state that decodes to `i` and goes on. -/
def GoesOn (s : State) (i : Instr) : Prop :=
  ∃ t w, step s = .next t ∧ fetch s = .ok w ∧ decode w = .ok i ∧ t.run = .running

theorem witness_PcAfterOneCycle_advance : GoesOn (edge 252 [0xA0, 0, 1]) (.add 0#8 1#8) :=
  ⟨_, _, rfl, rfl, rfl, by decide⟩

theorem witness_PcAfterOneCycle_call : GoesOn (start .cells255 0 9 0 0 1 [0x50, 7]) (.call 7#8) :=
  ⟨_, _, rfl, rfl, rfl, by decide⟩

theorem witness_PcAfterOneCycle_ret : GoesOn (edge 0 [0x11]) .ret := ⟨_, _, rfl, rfl, rfl, by decide⟩

theorem witness_PcAfterOneCycle_jmp : GoesOn (edge 252 [0x54, 0]) (.jmp 0#8) := ⟨_, _, rfl, rfl, rfl, by decide⟩

theorem witness_PcAfterOneCycle_branches :
    GoesOn (edge 252 [0x55, 0]) (.jeq 0#8) ∧ GoesOn (edge 252 [0x56, 0]) (.jne 0#8) ∧
      GoesOn ((edge 252 [0x55, 0]).setFlags { e := true, g := false, l := false }) (.jeq 0#8) ∧
      GoesOn ((edge 252 [0x56, 0]).setFlags { e := true, g := false, l := false }) (.jne 0#8) :=
  ⟨⟨_, _, rfl, rfl, rfl, by decide⟩, ⟨_, _, rfl, rfl, rfl, by decide⟩, ⟨_, _, rfl, rfl, rfl, by decide⟩,
    ⟨_, _, rfl, rfl, rfl, by decide⟩⟩

theorem witness_OnlyHltEndsRunNormally :
    (∃ t, step (edge 252 [0x01]) = .next t ∧ t.EndedNormally) ∧ ∃ t, step (edge 252 [0x00]) = .next t ∧ t.run = .running :=
  ⟨⟨_, rfl, rfl⟩, _, rfl, by decide⟩

theorem witness_SoftwareObligationsPreventErrors_store :
    let s := start .cells255 252 254 9 2 0xF4 [0x84, 0, 1]
    s.run = .running ∧ fetch s = .ok ⟨0x84#8, 0#8, 1#8, 0#8⟩ ∧ decode ⟨0x84#8, 0#8, 1#8, 0#8⟩ = .ok (.st 0#8 1#8) ∧
      (Instr.st 0#8 1#8).WellFormed ∧ (∀ a, dataAddress (.st 0#8 1#8) s = some a → a < s.params.memSize.toNat) ∧
      divisorNonzero (.st 0#8 1#8) s ∧ s.pc.toNat + instrLength 0x84#8 ≤ 255 := by
  refine ⟨rfl, rfl, rfl, by decide, ?_, ?_, by decide⟩
  · intro a h
    cases h
    decide
  · intro _ _ _ h
    rcases h with h | h <;> cases h

theorem witness_SoftwareObligationsPreventErrors_divide :
    let s := start .cells255 252 254 9 2 0xF4 [0xA3, 0, 1]
    s.run = .running ∧ fetch s = .ok ⟨0xA3#8, 0#8, 1#8, 0#8⟩ ∧ decode ⟨0xA3#8, 0#8, 1#8, 0#8⟩ = .ok (.div 0#8 1#8) ∧
      (Instr.div 0#8 1#8).WellFormed ∧ (∀ a, dataAddress (.div 0#8 1#8) s = some a → a < s.params.memSize.toNat) ∧
      divisorNonzero (.div 0#8 1#8) s ∧ s.pc.toNat + instrLength 0xA3#8 ≤ 255 := by
  refine ⟨rfl, rfl, rfl, by decide, ?_, ?_, by decide⟩
  · intro a h
    cases h
  · intro _ _ r h hr
    rcases h with h | h <;> cases h
    obtain rfl : r = 1 := Fin.ext hr.symm
    decide

theorem witness_EveryStepKeepsInvariant :
    ∃ s t, State.Inv s ∧ step s = .next t ∧ t.mem ≠ s.mem := ⟨_, _, inv_start, rfl, by decide⟩

theorem witness_LaunchedRunsStayInInvariant :
    Params.default.Legal ∧ ∃ s t, launch Params.default [0x82#8, 0#8, 5#8] = .next s ∧ Reaches s t ∧ t.reg 0 = 5#8 :=
  ⟨by decide, _, _, rfl, .tail .refl rfl, by decide⟩

theorem witness_DecodeOfEncodeIsIdentity : LegalAssignment otherTable where
  count o := by cases o <;> rfl
  advance o := by cases o <;> rfl
  distinct o o' h := by
    have key : ∀ p, lookupIn otherTable (otherTable p) = some p := fun p => by cases p <;> rfl
    exact Option.some.inj ((key o).symm.trans ((congrArg _ h).trans (key o')))

theorem witness_EncodeOfDecodeIsTheBytes : decode ⟨0x45#8, 9#8, 1#8, 2#8⟩ = .ok (.push 9#8) := rfl

theorem witness_UnusedOperandBytesIgnored :
    let w : Window := ⟨0x45#8, 3#8, 1#8, 2#8⟩
    let w' : Window := ⟨0x45#8, 3#8, 255#8, 0#8⟩
    w ≠ w' ∧ w.bytes.take (instrLength w.op) = w'.bytes.take (instrLength w.op) := by decide

theorem witness_InstructionsWriteOnlyTheirRegisters :
    ∃ t, exec (.pop 0#8) (edge 0 []) = .next t ∧ writesReg (.pop 0#8) 1 = false ∧ t.regs ≠ (edge 0 []).regs :=
  ⟨_, rfl, rfl, by decide⟩

theorem witness_OnlyCmpWritesFlags :
    ∃ t, exec (.dec 1#8) (edge 0 []) = .next t ∧ (Instr.dec 1#8).opcode ≠ .cmp := ⟨_, rfl, by decide⟩

theorem witness_GreaterAndLessFlagsHaveNoReader :
    (∃ t, exec (.jeq 0#8) (edge 0 []) = .next t) ∧ ∃ t, exec (.cmp 0#8 1#8) (edge 0 []) = .next t ∧ t.fl.g = true :=
  ⟨⟨_, rfl⟩, _, rfl, by decide⟩

theorem witness_InstructionsStoreOnlyAtTheirAddress :
    (∃ t, exec (.st 2#8 0#8) (edge 0 []) = .next t ∧ storeAddress (.st 2#8 0#8) (edge 0 []) = some 7 ∧
      t.mem.read 7 ≠ (edge 0 []).mem.read 7) ∧
    (∃ t, exec (.call 0#8) (start .cells255 0 0 0 0 1 []) = .next t ∧
      storeAddress (.call 0#8) (start .cells255 0 0 0 0 1 []) = some 0) ∧
    ∃ t, exec (.cmp 0#8 1#8) (edge 0 []) = .next t ∧ storeAddress (.cmp 0#8 1#8) (edge 0 []) = none :=
  ⟨⟨_, rfl, rfl, by decide⟩, ⟨_, rfl, rfl⟩, _, rfl, rfl⟩

theorem witness_ParametersFixedAndRunKept :
    (∃ t, exec (.inc 0#8) (edge 0 []) = .next t ∧ (Instr.inc 0#8).opcode ≠ .hlt ∧ t.run = (edge 0 []).run) ∧
      ∃ t, exec (.inc 8#8) (edge 0 []) = .next t ∧ t.run = .halted (.invalidRegister 8#8) :=
  ⟨⟨_, rfl, by decide, by decide⟩, _, rfl, by decide⟩

/-- NopOnlyAdvances, HltHalts: the highest pc that meets the hypothesis. -/
theorem witness_NopOnlyAdvances : (edge 254 []).pc.toNat + 1 ≤ 255 := by decide

theorem witness_HltHalts : (edge 254 []).pc.toNat + 1 ≤ 255 := by decide

theorem witness_LdiWritesImmediate : (7#8).toNat = (7 : RegIdx).val ∧ (edge 252 []).pc.toNat + 3 ≤ 255 := by decide

theorem witness_LdReadsThroughRegister :
    (7#8).toNat = (7 : RegIdx).val ∧ (0#8).toNat = (0 : RegIdx).val ∧
      ((start .cells256 252 255 0 0 0 []).reg 0).toNat < (start .cells256 252 255 0 0 0 []).params.memSize.toNat ∧
      (start .cells256 252 255 0 0 0 []).pc.toNat + 3 ≤ 255 := by decide

theorem witness_StStoresThroughRegister :
    let s := start .cells255 252 254 7 0 0 [1, 2]
    s.mem.wf = true ∧ (0#8).toNat = (0 : RegIdx).val ∧ (1#8).toNat = (1 : RegIdx).val ∧
      (s.reg 0).toNat < s.params.memSize.toNat ∧ s.pc.toNat + 3 ≤ 255 := by decide

/-- With register 0, with register 7, and with the stack pointer that wraps. -/
theorem witness_PushStoresBelowStackPointer :
    let s := start .cells256 253 1 0 0 0 [1, 2]
    s.mem.wf = true ∧ (0#8).toNat = (0 : RegIdx).val ∧ (7#8).toNat = (7 : RegIdx).val ∧
      ((s.reg 7).toNat + 255) % 256 < s.params.memSize.toNat ∧ s.pc.toNat + 2 ≤ 255 := by decide

theorem witness_PopLoadsFromStackPointer :
    let s := start .cells256 253 1 0 0 255 []
    (0#8).toNat = (0 : RegIdx).val ∧ (7#8).toNat = (7 : RegIdx).val ∧
      (s.reg 7).toNat < s.params.memSize.toNat ∧ s.pc.toNat + 2 ≤ 255 := by decide

theorem witness_PrnAndPraEmitTheRegister : (7#8).toNat = (7 : RegIdx).val ∧ (edge 253 []).pc.toNat + 2 ≤ 255 := by decide

theorem witness_AddSubMulModulo256 :
    (7#8).toNat = (7 : RegIdx).val ∧ (0#8).toNat = (0 : RegIdx).val ∧ (edge 252 []).pc.toNat + 3 ≤ 255 := by decide

theorem witness_DivModQuotientRemainder :
    (1#8).toNat = (1 : RegIdx).val ∧ (0#8).toNat = (0 : RegIdx).val ∧ (edge 252 []).reg 0 ≠ 0#8 ∧
      (edge 252 []).pc.toNat + 3 ≤ 255 := by decide

theorem witness_CmpSetsTheRelation :
    (1#8).toNat = (1 : RegIdx).val ∧ (0#8).toNat = (0 : RegIdx).val ∧ (edge 252 []).pc.toNat + 3 ≤ 255 := by decide

theorem witness_AndOrXorBitwise :
    (1#8).toNat = (1 : RegIdx).val ∧ (7#8).toNat = (7 : RegIdx).val ∧ (edge 252 []).pc.toNat + 3 ≤ 255 := by decide

theorem witness_NotComplementsTheCell : (7#8).toNat = (7 : RegIdx).val ∧ (edge 253 []).pc.toNat + 2 ≤ 255 := by decide

/-- Counts 7 (R2) and 255 (R0). -/
theorem witness_ShiftsByTheWholeCount :
    (2#8).toNat = (2 : RegIdx).val ∧ (0#8).toNat = (0 : RegIdx).val ∧ 8 ≤ ((edge 252 []).reg 0).toNat ∧
      ((edge 252 []).reg 2).toNat < 8 ∧ (edge 252 []).pc.toNat + 3 ≤ 255 := by decide

theorem witness_IncDecByOne : (0#8).toNat = (0 : RegIdx).val ∧ (edge 253 []).pc.toNat + 2 ≤ 255 := by decide

theorem witness_AddiAddsImmediate :
    (7#8).toNat = (7 : RegIdx).val ∧ (0#8).toNat = (0 : RegIdx).val ∧ (edge 251 []).pc.toNat + 4 ≤ 255 := by decide

/-- With register 0, with register 7, and at the highest pc. -/
theorem witness_CallPushesReturnAddress :
    let s := start .cells255 253 9 0 0 255 []
    s.mem.wf = true ∧ (0#8).toNat = (0 : RegIdx).val ∧ (7#8).toNat = (7 : RegIdx).val ∧
      ((s.reg 7).toNat + 255) % 256 < s.params.memSize.toNat ∧ s.pc.toNat + 2 ≤ 255 := by decide

theorem witness_RetPopsIntoPc :
    let s := start .cells256 0 0 0 0 255 []
    (s.reg 7).toNat < s.params.memSize.toNat := by decide

theorem witness_JmpGoesToRegister : (0#8).toNat = (0 : RegIdx).val ∧ ((edge 0 []).reg 0).toNat = 255 := by decide

theorem witness_JeqJneByEqualFlag : (7#8).toNat = (7 : RegIdx).val ∧ (edge 253 []).pc.toNat + 2 ≤ 255 := by decide

theorem witness_PushThenPopRestores :
    let s := start .cells255 0 9 0 0 1 []
    s.mem.wf = true ∧ s.run = .running ∧
      (∃ t u, exec (.push 0#8) s = .next t ∧ t.run = .running ∧ exec (.pop 0#8) t = .next u ∧ u.run = .running) ∧
      ∃ t u, exec (.push 7#8) s = .next t ∧ t.run = .running ∧ exec (.pop 7#8) t = .next u ∧ u.run = .running :=
  ⟨by decide, rfl, ⟨_, _, rfl, by decide, rfl, by decide⟩, _, _, rfl, by decide, rfl, by decide⟩

theorem witness_RetReturnsAfterCall :
    let s := start .cells255 253 9 0 0 255 []
    s.mem.wf = true ∧ s.run = .running ∧ s.pc.toNat + 2 ≤ 255 ∧
      ∃ t u, exec (.call 0#8) s = .next t ∧ t.run = .running ∧ u = (t.setReg 1 3#8).setPc 77#8 ∧ u.params = t.params ∧
        u.reg 7 = t.reg 7 ∧ u.mem.read (t.reg 7).toNat = t.mem.read (t.reg 7).toNat :=
  ⟨by decide, rfl, by decide, _, _, rfl, by decide, rfl, rfl, by decide, rfl⟩

/-- ST R0,R1 at 0 stores the byte 0xC0 at address `a`, where the next cycle fetches. -/
def StoresAhead (a : Byte) (bytes : List Byte) : Prop :=
  let s := start .cells255 0 a 0xC0 0 0 bytes
  s.mem.wf = true ∧ s.run = .running ∧
    ∃ t w, exec (.st 0#8 1#8) s = .next t ∧ t.run = .running ∧ fetch t = .ok w ∧ (s.reg 0).toNat = a.toNat ∧ t.pc = 3#8

theorem witness_StoreIsSeenByTheNextFetch :
    StoresAhead 3 [] ∧ StoresAhead 4 [] ∧ StoresAhead 5 [] ∧ StoresAhead 6 [0, 0, 0, 0xE0] :=
  ⟨⟨by decide, rfl, _, _, rfl, by decide, rfl, rfl, by decide⟩, ⟨by decide, rfl, _, _, rfl, by decide, rfl, rfl, by decide⟩,
    ⟨by decide, rfl, _, _, rfl, by decide, rfl, rfl, by decide⟩, ⟨by decide, rfl, _, _, rfl, by decide, rfl, rfl, by decide⟩⟩

theorem witness_CanonicalMemoryIsDeterminedByReads :
    let m := Memory.write (Memory.write [] 1 2) 254 3
    let m' := Memory.write (Memory.write [] 254 3) 1 2
    m.wf = true ∧ m'.wf = true ∧ ∀ a, m.read a = m'.read a :=
  ⟨by decide, by decide, fun _ => rfl⟩

end Sys2Proof.Tests
end

section
/-! O32 (10_state.md R19): the output history. A transformer that never looks at `out` commutes with replacing it
(`OutBlind`), and every shape an instruction is built from keeps that; only PRN and PRA emit. -/

namespace Sys2Proof.Machine

/-- The state with another output history. -/
def State.withOut (s : State) (o : List OutEvent) : State := { s with out := o }

@[simp] theorem State.withOut_params (s : State) (o : List OutEvent) : (s.withOut o).params = s.params := rfl
@[simp] theorem State.withOut_pc (s : State) (o : List OutEvent) : (s.withOut o).pc = s.pc := rfl

/-- `f` neither reads nor writes the output history: from another history it does the same and keeps that one. -/
def OutBlind (f : State → State) : Prop := ∀ (s : State) (o : List OutEvent), f (s.withOut o) = (f s).withOut o

/-- From `s`, `e` completes and appends `d`, whatever the history it starts from. -/
def Appends (e : State → Host.Outcome State Fault Refusal) (s : State) (d : List OutEvent) : Prop :=
  ∃ t, e s = .next t ∧ ∀ o, e (s.withOut o) = .next (t.withOut (o ++ d))

/-- `d` is the one event that `i`, a PRN or a PRA, emits in `s` (R110, R111). -/
def Prints (i : Instr) (s : State) (d : List OutEvent) : Prop :=
  ∃ (b : Byte) (r : RegIdx), b.toNat = r.val ∧
    (i = .prn b ∧ d = [.dec (s.reg r)] ∨ i = .pra b ∧ d = [.chr (s.reg r)])

/-- The shape of PRN and PRA, for the kind of event they emit. -/
def emitReg (mk : Byte → OutEvent) (b : Byte) (s : State) : State :=
  withReg b s fun r => advance 2 (s.emit (mk (s.reg r)))

theorem exec_prn (b : Byte) : exec (.prn b) = fun s => .next (emitReg .dec b s) := rfl

theorem exec_pra (b : Byte) : exec (.pra b) = fun s => .next (emitReg .chr b s) := rfl

/-! ### The shapes of an instruction do not look at the history -/

theorem advance_withOut (n : Nat) (s : State) (o : List OutEvent) :
    advance n (s.withOut o) = (advance n s).withOut o := by
  unfold advance
  rw [State.withOut_pc]
  split <;> rfl

theorem OutBlind.thenAdvance (n : Nat) {f : State → State} (hf : OutBlind f) : OutBlind fun s => advance n (f s) :=
  fun s o => (congrArg (advance n) (hf s o)).trans (advance_withOut n (f s) o)

theorem OutBlind.branch {c : State → Prop} [DecidablePred c] {f g : State → State}
    (hc : ∀ s o, c (s.withOut o) ↔ c s) (hf : OutBlind f) (hg : OutBlind g) :
    OutBlind fun s => if c s then f s else g s := by
  intro s o
  simp only [hc, hf s o, hg s o]
  split <;> rfl

/-- A check or an access whose answer does not depend on the history, and what follows it. -/
theorem OutBlind.check {α : Type} {r : State → Except HaltCause α} {k : State → α → State}
    (hr : ∀ s o, r (s.withOut o) = r s) (hk : ∀ a, OutBlind fun s => k s a) :
    OutBlind fun s => orRaise s (r s) (k s) := by
  intro s o
  simp only [hr]
  cases r s with
  | ok a => exact hk a s o
  | error c => rfl

theorem OutBlind.checkReg {a : Byte} {k : State → RegIdx → State} (hk : ∀ r, OutBlind fun s => k s r) :
    OutBlind fun s => withReg a s (k s) :=
  .check (fun _ _ => rfl) hk

theorem OutBlind.checkRegs {a b : Byte} {k : State → RegIdx → RegIdx → State}
    (hk : ∀ ra rb, OutBlind fun s => k s ra rb) : OutBlind fun s => withRegs a b s (k s) :=
  .checkReg fun ra => .checkReg (hk ra)

/-- A store into the state `g` leaves, and what follows it. -/
theorem OutBlind.store {g : State → State} {a : State → Nat} {v : State → Byte} {k : State → State}
    (hg : OutBlind g) (ha : ∀ s o, a (s.withOut o) = a s) (hv : ∀ s o, v (s.withOut o) = v s) (hk : OutBlind k) :
    OutBlind fun s => orRaise (g s) (memWrite (g s) (a s) (v s)) k := by
  intro s o
  simp only [hg s o, ha, hv, memWrite, State.withOut_params]
  split
  · rfl
  · exact hk ((g s).setMem ((g s).mem.write (a s) (v s))) o

/-- A push of a byte that is taken from the states before and after the decrement. -/
theorem OutBlind.push {v : State → State → Byte} {k : State → State}
    (hv : ∀ s t o, v (s.withOut o) (t.withOut o) = v s t) (hk : OutBlind k) : OutBlind fun s => stackPush (v s) s k :=
  .store (g := fun s => s.setReg spIdx s.spDown) (fun _ _ => rfl) (fun _ _ => rfl)
    (fun s o => hv s (s.setReg spIdx s.spDown) o) hk

theorem aluTwo_outBlind (f : Byte → Byte → Byte) (a b : Byte) : OutBlind (aluTwo f a b) :=
  .checkRegs fun _ _ => .thenAdvance 3 fun _ _ => rfl

theorem aluDivide_outBlind (op : Byte) (f : Byte → Byte → Byte) (a b : Byte) : OutBlind (aluDivide op f a b) :=
  .checkRegs fun _ _ => .branch (fun _ _ => Iff.rfl) (fun _ _ => rfl) (.thenAdvance 3 fun _ _ => rfl)

theorem aluOne_outBlind (f : Byte → Byte) (a : Byte) : OutBlind (aluOne f a) :=
  .checkReg fun _ => .thenAdvance 2 fun _ _ => rfl

theorem jumpIf_outBlind {taken : State → Bool} (ht : ∀ s o, taken (s.withOut o) = taken s) (reg : Byte) :
    OutBlind fun s => jumpIf (taken s) reg s :=
  .checkReg fun _ => .branch (fun s o => by rw [ht s o]) (fun _ _ => rfl) (.thenAdvance 2 fun _ _ => rfl)

/-! ### What an instruction appends -/

theorem OutBlind.appends {f : State → State} (hf : OutBlind f) (s : State) : Appends (fun s => .next (f s)) s [] :=
  ⟨f s, rfl, fun o => by simp only [hf s o, List.append_nil]⟩

/-- A bad operand appends nothing, a good one the event of the register it names. -/
theorem emitReg_appends (mk : Byte → OutEvent) (b : Byte) (s : State) :
    Appends (fun s => .next (emitReg mk b s)) s [] ∨
      ∃ r : RegIdx, b.toNat = r.val ∧ Appends (fun s => .next (emitReg mk b s)) s [mk (s.reg r)] := by
  rcases h : regIndex b with c | r
  · have hbad (s : State) : emitReg mk b s = raise c s := by simp [emitReg, withReg, h]
    have hblind : OutBlind (emitReg mk b) := fun s o => by rw [hbad, hbad]; rfl
    exact .inl (hblind.appends s)
  · have hb : b.toNat = r.val := regIndex_ok.mp h
    have hgood (s : State) : emitReg mk b s = advance 2 (s.emit (mk (s.reg r))) := withReg_of hb s _
    have hemit (o : List OutEvent) :
        emitReg mk b (s.withOut o) = (advance 2 (s.emit (mk (s.reg r)))).withOut (o ++ [mk (s.reg r)]) :=
      (hgood _).trans (advance_withOut 2 (s.emit (mk (s.reg r))) (o ++ [mk (s.reg r)]))
    exact .inr ⟨r, hb, _, congrArg _ (hgood s), fun o => congrArg _ (hemit o)⟩

/-- The history an instruction leaves, from `Appends` at the history it started with. -/
theorem Appends.out_eq {e : State → Host.Outcome State Fault Refusal} {s t : State} {d : List OutEvent}
    (h : Appends e s d) (ht : e s = .next t) : t.out = s.out ++ d := by
  obtain ⟨t₁, -, hall⟩ := h
  have hself : Host.Outcome.next t = .next (t₁.withOut (s.out ++ d)) := ht.symm.trans (hall s.out)
  injection hself with hself
  exact congrArg State.out hself

/-- Every instruction appends nothing, or prints. -/
theorem exec_appends (i : Instr) (s : State) :
    Appends (exec i) s [] ∨ ∃ d, Prints i s d ∧ Appends (exec i) s d :=
  match i with
  | .nop => .inl (OutBlind.appends (.thenAdvance 1 fun _ _ => rfl) s)
  | .hlt => .inl (OutBlind.appends (.thenAdvance 1 fun _ _ => rfl) s)
  | .ldi _ _ => .inl (OutBlind.appends (.checkReg fun _ => .thenAdvance 3 fun _ _ => rfl) s)
  | .ld _ _ =>
    .inl (OutBlind.appends (.checkRegs fun _ _ => .check (fun _ _ => rfl) fun _ => .thenAdvance 3 fun _ _ => rfl) s)
  | .st _ _ =>
    .inl (OutBlind.appends (.checkRegs fun _ _ =>
      .store (fun _ _ => rfl) (fun _ _ => rfl) (fun _ _ => rfl) (.thenAdvance 3 fun _ _ => rfl)) s)
  | .push _ =>
    .inl (OutBlind.appends (.checkReg fun _ => .push (fun _ _ _ => rfl) (.thenAdvance 2 fun _ _ => rfl)) s)
  | .pop _ =>
    .inl (OutBlind.appends (.checkReg fun _ => .check (fun _ _ => rfl) fun _ => .thenAdvance 2 fun _ _ => rfl) s)
  | .prn b => by
    rw [exec_prn]
    exact (emitReg_appends .dec b s).imp_right fun ⟨r, hr, h⟩ => ⟨_, ⟨b, r, hr, .inl ⟨rfl, rfl⟩⟩, h⟩
  | .pra b => by
    rw [exec_pra]
    exact (emitReg_appends .chr b s).imp_right fun ⟨r, hr, h⟩ => ⟨_, ⟨b, r, hr, .inr ⟨rfl, rfl⟩⟩, h⟩
  | .add a b => .inl ((aluTwo_outBlind aluAdd a b).appends s)
  | .sub a b => .inl ((aluTwo_outBlind aluSub a b).appends s)
  | .mul a b => .inl ((aluTwo_outBlind aluMul a b).appends s)
  | .div a b => .inl ((aluDivide_outBlind _ aluDiv a b).appends s)
  | .mod a b => .inl ((aluDivide_outBlind _ aluMod a b).appends s)
  | .cmp _ _ => .inl (OutBlind.appends (.checkRegs fun _ _ => .thenAdvance 3 fun _ _ => rfl) s)
  | .and a b => .inl ((aluTwo_outBlind aluAnd a b).appends s)
  | .or a b => .inl ((aluTwo_outBlind aluOr a b).appends s)
  | .xor a b => .inl ((aluTwo_outBlind aluXor a b).appends s)
  | .shl a b => .inl ((aluTwo_outBlind aluShl a b).appends s)
  | .shr a b => .inl ((aluTwo_outBlind aluShr a b).appends s)
  | .not a => .inl ((aluOne_outBlind aluNot a).appends s)
  | .inc reg => .inl ((aluOne_outBlind (fun x => aluAdd x 1#8) reg).appends s)
  | .dec reg => .inl ((aluOne_outBlind (fun x => aluSub x 1#8) reg).appends s)
  | .addi _ _ _ => .inl (OutBlind.appends (.checkRegs fun _ _ => .thenAdvance 4 fun _ _ => rfl) s)
  | .call _ => .inl (OutBlind.appends (.checkReg fun _ => .push (fun _ _ _ => rfl) fun _ _ => rfl) s)
  | .ret => .inl (OutBlind.appends (.check (fun _ _ => rfl) fun _ _ _ => rfl) s)
  | .jmp _ => .inl (OutBlind.appends (.checkReg fun _ _ _ => rfl) s)
  | .jeq reg => .inl ((jumpIf_outBlind (taken := fun s => s.fl.e) (fun _ _ => rfl) reg).appends s)
  | .jne reg => .inl ((jumpIf_outBlind (taken := fun s => !s.fl.e) (fun _ _ => rfl) reg).appends s)

/-- Settles O32: by cases on the instruction, it appends nothing or it prints; either way the history is not read. -/
theorem outputAppendedByPrnAndPraOnly : Obligations.OutputAppendedByPrnAndPraOnly := by
  refine ⟨fun _ => rfl, fun i s o => ?_⟩
  obtain ⟨d, happ, hd⟩ : ∃ d, Appends (exec i) s d ∧ (d = [] ∨ Prints i s d) :=
    (exec_appends i s).elim (fun h => ⟨[], h, .inl rfl⟩) fun ⟨d, hp, h⟩ => ⟨d, h, .inr hp⟩
  have ⟨t, ht, hall⟩ := happ
  exact ⟨t, t.withOut (o ++ d), d, ht, hall o, happ.out_eq ht, rfl, rfl, hd⟩

end Sys2Proof.Machine
end

section
/-! O11 (30_encoding.md R58): an opcode byte without an instruction fails the decoder, whatever its operand bytes, and the
cycle raises that error in the state the fetch began with. -/

namespace Sys2Proof

/-- The decoder rejects a window exactly when no instruction has its opcode byte, and names that byte (R74). -/
theorem decode_error {w : Window} {e : DecodeError} :
    decode w = .error e ↔ (∀ o, opcodeByte o ≠ w.op) ∧ e = .unknownOpcode w.op := by
  rw [← lookupIn_none, decode, decodeIn]
  cases lookupIn opcodeByte w.op <;> simp [eq_comm]

end Sys2Proof

namespace Sys2Proof.Machine

/-- A cycle whose opcode byte the decoder rejects raises UnknownOpcode and does nothing else (R81, R167). -/
theorem cycle_of_decode_error {s : State} {w : Window} {op : Byte} (hf : fetch s = .ok w)
    (hd : decode w = .error (.unknownOpcode op)) : cycle s = .next (raise (.unknownOpcode op) s) := by
  simp [cycle, hf, hd]

/-- Settles O11: the decoder names the unassigned byte, and raising it sets the run state only. -/
theorem unassignedOpcodeHalts : Obligations.UnassignedOpcodeHalts := by
  intro s w hrun hf hop
  have hd : decode w = .error (.unknownOpcode w.op) := decode_error.mpr ⟨hop, rfl⟩
  exact (step_running hrun).trans (cycle_of_decode_error hf hd)

end Sys2Proof.Machine
end

section
/-! O24 (30_encoding.md R52): the two fields the decoder reads from an opcode byte, as numbers, and what they are on the
bytes of the opcode table. -/

namespace Sys2Proof

/-- Bits k+n-1 to k of a byte, as a number. -/
theorem toNat_field (b : Byte) (k : Nat) {n : Nat} (hn : n ≤ 8) :
    (b >>> k &&& BitVec.ofNat 8 (2 ^ n - 1)).toNat = b.toNat / 2 ^ k % 2 ^ n := by
  have hmask : 2 ^ n - 1 < 2 ^ 8 := lt_of_lt_of_le (Nat.sub_one_lt (by simp)) (Nat.pow_le_pow_right two_pos hn)
  rw [BitVec.toNat_and, BitVec.toNat_ushiftRight, BitVec.toNat_ofNat, Nat.mod_eq_of_lt hmask,
    Nat.and_two_pow_sub_one_eq_mod, Nat.shiftRight_eq_div_pow]

/-- N is op[7:6] (R51, R52). -/
theorem operandCount_eq (op : Byte) : operandCount op = op.toNat / 64 % 4 :=
  toNat_field op 6 (n := 2) (by decide)

/-- C is op[4] (R52). -/
theorem selfAdvances_iff (op : Byte) : selfAdvances op = true ↔ op.toNat / 16 % 2 = 1 := by
  have hbit : (op >>> 4 &&& 0b1#8).toNat = op.toNat / 16 % 2 := toNat_field op 4 (n := 1) (by decide)
  rw [selfAdvances, beq_iff_eq, ← BitVec.toNat_inj, hbit]
  rfl

/-- N of an assigned opcode byte is the operand count of the instruction's format (R52, R54). -/
theorem operandCount_opcodeByte (o : Opcode) : operandCount (opcodeByte o) = o.format.operandCount :=
  Nat.succ.inj (instrLength_opcodeByte o)

/-- C of an assigned opcode byte is the column C of the table (R52, R55). -/
theorem selfAdvances_opcodeByte (o : Opcode) : selfAdvances (opcodeByte o) = o.selfAdvancing := by
  cases o <;> decide

/-- The self-advancing instructions by name (R55, R150). -/
theorem Opcode.selfAdvancing_iff (o : Opcode) : o.selfAdvancing = true ↔ o ∈ [Opcode.call, .ret, .jmp, .jeq, .jne] := by
  cases o <;> decide

/-- Settles O24: both fields as numbers, then the table row by row. -/
theorem decoderLengthAndSelfAdvance : Obligations.DecoderLengthAndSelfAdvance := by
  refine ⟨fun op => ⟨?_, selfAdvances_iff op⟩, fun i => ?_, fun o => ?_⟩
  · rw [instrLength, operandCount_eq]
  · rw [operandCount_opcodeByte, Instr.operands_length]
  · rw [selfAdvances_opcodeByte, Opcode.selfAdvancing_iff]

end Sys2Proof
end

section
/-! O7 (40_execution_cycle.md R70): every instruction has a next state, errors included, so a running cycle always ends in
one; when it runs no instruction it only raises the one error of its fetch or its dispatch. -/

namespace Sys2Proof.Machine

/-- Every instruction answers a next state: its errors are raised into the state, none is a fault of the model (R170). -/
theorem exec_next (i : Instr) (s : State) : ∃ t, exec i s = .next t := by
  cases i <;> exact ⟨_, rfl⟩

/-- The fetch never raises the cause of a normal end (R166). -/
theorem fetch_error_ne_hlt {s : State} {c : HaltCause} (h : fetch s = .error c) : c ≠ .hlt := by
  obtain ⟨a, rfl, -, -⟩ := fetch_error h
  simp

/-- Settles O7: outside Running by `running_of_step`; in Running by the three cases of a cycle. -/
theorem stepsOnlyWhileRunning : Obligations.StepsOnlyWhileRunning := by
  refine fun s => ⟨fun hrun t ht => hrun (running_of_step ht).1, fun hrun => ?_⟩
  rw [step_running hrun]
  rcases cycle_cases s with ⟨c, hf, hc⟩ | ⟨w, op, hf, hd, hc⟩ | ⟨w, i, hf, hd, hc⟩
  · exact ⟨_, hc, .inr ⟨c, fetch_error_ne_hlt hf, rfl, by simp [hf]⟩⟩
  · have hnone : ∀ w' i, fetch s = .ok w' → decode w' ≠ .ok i := by
      rw [hf]
      rintro _ i ⟨rfl⟩
      simp [hd]
    exact ⟨_, hc, .inr ⟨.unknownOpcode op, by simp, rfl, hnone⟩⟩
  · obtain ⟨t, ht⟩ := exec_next i s
    exact ⟨t, hc.trans ht, .inl ⟨w, i, hf, hd, ht⟩⟩

end Sys2Proof.Machine
end

section
/-! O29 (44_alu.md R136): the flags. Every shape an instruction is built from keeps them if the part it continues with
does; of the parts only CMP's sets them. -/

namespace Sys2Proof.Machine

/-! ### The shapes of an instruction keep the flags -/

theorem orRaise_fl {α : Type} {s : State} {r : Except HaltCause α} {k : α → State} (hk : ∀ a, (k a).fl = s.fl) :
    (orRaise s r k).fl = s.fl := by
  cases r with
  | ok a => exact hk a
  | error c => exact raise_fl s c

theorem withReg_fl {a : Byte} {s : State} {k : RegIdx → State} (hk : ∀ r, (k r).fl = s.fl) :
    (withReg a s k).fl = s.fl :=
  orRaise_fl hk

theorem withRegs_fl {a b : Byte} {s : State} {k : RegIdx → RegIdx → State} (hk : ∀ ra rb, (k ra rb).fl = s.fl) :
    (withRegs a b s k).fl = s.fl :=
  orRaise_fl fun ra => orRaise_fl (hk ra)

/-- A store hands on a state that differs in memory only (R32). -/
theorem memWrite_fl {s : State} {a : Nat} {v : Byte} {k : State → State} (hk : ∀ m, (k (s.setMem m)).fl = s.fl) :
    (orRaise s (memWrite s a v) k).fl = s.fl :=
  memWrite_ind (P := fun t => t.fl = s.fl) (fun _ => hk _) fun _ => raise_fl s _

theorem stackPush_fl {v : State → Byte} {s : State} {k : State → State} (hk : ∀ t, (k t).fl = t.fl) :
    (stackPush v s k).fl = s.fl :=
  memWrite_fl (s := s.setReg spIdx s.spDown) fun _ => hk _

theorem aluTwo_fl (f : Byte → Byte → Byte) (a b : Byte) (s : State) : (aluTwo f a b s).fl = s.fl :=
  withRegs_fl fun _ _ => advance_fl 3 _

/-- The division by zero raises, and raising keeps the flags too (R168). -/
theorem aluDivide_fl (op : Byte) (f : Byte → Byte → Byte) (a b : Byte) (s : State) :
    (aluDivide op f a b s).fl = s.fl := by
  refine withRegs_fl fun ra rb => ?_
  split
  · exact raise_fl s _
  · exact advance_fl 3 _

theorem aluOne_fl (f : Byte → Byte) (a : Byte) (s : State) : (aluOne f a s).fl = s.fl :=
  withReg_fl fun _ => advance_fl 2 _

theorem jumpIf_fl (taken : Bool) (reg : Byte) (s : State) : (jumpIf taken reg s).fl = s.fl := by
  refine withReg_fl fun r => ?_
  split
  · exact State.setPc_fl s _
  · exact advance_fl 2 s

/-! ### The instructions -/

/-- An instruction other than CMP goes on, in a state with the same flags. -/
theorem exec_keeps_fl (i : Instr) (s : State) (hi : i.opcode ≠ .cmp) : ∃ t, exec i s = .next t ∧ t.fl = s.fl :=
  match i, hi with
  | .cmp _ _, hi => absurd rfl hi
  | .nop, _ => ⟨_, rfl, advance_fl 1 s⟩
  | .hlt, _ => ⟨_, rfl, advance_fl 1 _⟩
  | .ldi _ _, _ => ⟨_, rfl, withReg_fl fun _ => advance_fl 3 _⟩
  | .ld _ _, _ => ⟨_, rfl, withRegs_fl fun _ _ => orRaise_fl fun _ => advance_fl 3 _⟩
  | .st _ _, _ => ⟨_, rfl, withRegs_fl fun _ _ => memWrite_fl fun _ => advance_fl 3 _⟩
  | .push _, _ => ⟨_, rfl, withReg_fl fun _ => stackPush_fl (advance_fl 2)⟩
  | .pop _, _ => ⟨_, rfl, withReg_fl fun _ => orRaise_fl fun _ => advance_fl 2 _⟩
  | .prn _, _ => ⟨_, rfl, withReg_fl fun _ => advance_fl 2 _⟩
  | .pra _, _ => ⟨_, rfl, withReg_fl fun _ => advance_fl 2 _⟩
  | .add a b, _ => ⟨_, rfl, aluTwo_fl aluAdd a b s⟩
  | .sub a b, _ => ⟨_, rfl, aluTwo_fl aluSub a b s⟩
  | .mul a b, _ => ⟨_, rfl, aluTwo_fl aluMul a b s⟩
  | .div a b, _ => ⟨_, rfl, aluDivide_fl _ aluDiv a b s⟩
  | .mod a b, _ => ⟨_, rfl, aluDivide_fl _ aluMod a b s⟩
  | .and a b, _ => ⟨_, rfl, aluTwo_fl aluAnd a b s⟩
  | .or a b, _ => ⟨_, rfl, aluTwo_fl aluOr a b s⟩
  | .xor a b, _ => ⟨_, rfl, aluTwo_fl aluXor a b s⟩
  | .shl a b, _ => ⟨_, rfl, aluTwo_fl aluShl a b s⟩
  | .shr a b, _ => ⟨_, rfl, aluTwo_fl aluShr a b s⟩
  | .not a, _ => ⟨_, rfl, aluOne_fl aluNot a s⟩
  | .inc reg, _ => ⟨_, rfl, aluOne_fl (fun x => aluAdd x 1#8) reg s⟩
  | .dec reg, _ => ⟨_, rfl, aluOne_fl (fun x => aluSub x 1#8) reg s⟩
  | .addi _ _ _, _ => ⟨_, rfl, withRegs_fl fun _ _ => advance_fl 4 _⟩
  | .call _, _ => ⟨_, rfl, withReg_fl fun _ => stackPush_fl fun t => State.setPc_fl t _⟩
  | .ret, _ => ⟨_, rfl, orRaise_fl fun v => State.setPc_fl (s.setReg spIdx s.spUp) v⟩
  | .jmp _, _ => ⟨_, rfl, withReg_fl fun _ => State.setPc_fl s _⟩
  | .jeq reg, _ => ⟨_, rfl, jumpIf_fl s.fl.e reg s⟩
  | .jne reg, _ => ⟨_, rfl, jumpIf_fl (!s.fl.e) reg s⟩

/-- Settles O29: the next state is the one `exec_keeps_fl` speaks of. -/
theorem onlyCmpWritesFlags : Obligations.OnlyCmpWritesFlags := by
  intro i s t ht hi
  obtain ⟨u, hu, hfl⟩ := exec_keeps_fl i s hi
  have htu : Host.Outcome.next t = .next u := ht.symm.trans hu
  injection htu with htu
  exact htu ▸ hfl

end Sys2Proof.Machine
end

section
/-! O22, O23, O27, O25, O26 (30_encoding.md): the lookup finds the opcode of every assigned byte, and the decoder builds the
instruction from the operand slots its opcode uses. -/

namespace Sys2Proof

/-- Where no two opcodes share a byte, the lookup finds every opcode under its own (R74). -/
theorem lookupIn_of_injective {opc : Opcode → Byte} (hinj : ∀ o o', opc o = opc o' → o = o') (o : Opcode) :
    lookupIn opc (opc o) = some o := by
  cases h : lookupIn opc (opc o) with
  | none => exact absurd rfl (lookupIn_none.mp h o)
  | some o' => rw [hinj o' o (lookupIn_sound h)]

/-- Building from the bytes of an instruction, whatever follows them, gives it back (R54). -/
theorem Opcode.build_operands (i : Instr) (b : Byte) (rest : List Byte) :
    let w := Window.ofList (b :: i.operands ++ rest)
    i.opcode.build w.opa w.opb w.opc = i := by
  cases i <;> rfl

/-- The bytes of a built instruction are the opcode byte and the operand slots that its format has (R50, R54). -/
theorem encode_build (o : Opcode) (opa opb opc : Byte) :
    encode (o.build opa opb opc) = (Window.mk (opcodeByte o) opa opb opc).bytes.take (o.format.operandCount + 1) := by
  cases o <;> rfl

/-- The decoder accepts exactly the opcode bytes of the table, and builds the instruction from the slots (R74). -/
theorem decode_ok {w : Window} {i : Instr} (h : decode w = .ok i) :
    ∃ o, opcodeByte o = w.op ∧ i = o.build w.opa w.opb w.opc := by
  rw [decode, decodeIn] at h
  split at h
  · next o ho => exact ⟨o, lookupIn_sound ho, (Except.ok.inj h).symm⟩
  · cases h

/-- The opcode byte of what is decoded is the one fetched. -/
theorem opcodeByte_of_decode {w : Window} {i : Instr} (h : decode w = .ok i) : opcodeByte i.opcode = w.op := by
  obtain ⟨o, ho, rfl⟩ := decode_ok h
  rw [Opcode.build_opcode, ho]

/-- Settles O22: the lookup finds the opcode under its own byte, and the operands are read back from their slots. -/
theorem decodeOfEncodeIsIdentity : Obligations.DecodeOfEncodeIsIdentity := by
  intro opc hopc i rest
  have hop : lookupIn opc (Window.ofList (encodeIn opc i ++ rest)).op = some i.opcode :=
    lookupIn_of_injective hopc.distinct i.opcode
  rw [decodeIn, hop]
  exact congrArg Except.ok (Opcode.build_operands i (opc i.opcode) rest)

/-- Settles O23: the decoder's length is that of the format, and a built instruction has the bytes of its slots. -/
theorem encodeOfDecodeIsTheBytes : Obligations.EncodeOfDecodeIsTheBytes := by
  intro w i h
  obtain ⟨o, ho, rfl⟩ := decode_ok h
  rw [encode_build, ← ho, instrLength_opcodeByte]
  simp only [Window.bytes, ho]

/-- Settles O25: distinctness because the lookup finds each row of the table under its byte; the count by evaluation. -/
theorem opcodeTableIsLegal : Obligations.OpcodeTableIsLegal := by
  have hfind (o : Opcode) : lookup (opcodeByte o) = some o := by cases o <;> decide
  refine ⟨⟨operandCount_opcodeByte, selfAdvances_opcodeByte, fun o o' h => ?_⟩, by decide +kernel, by decide⟩
  exact Option.some.inj ((hfind o).symm.trans ((congrArg lookup h).trans (hfind o')))

/-- Different instructions have different bytes: the table is a legal assignment, and decoding gives the instruction back. -/
theorem encode_injective {i j : Instr} (h : encode i = encode j) : i = j := by
  have hi := decodeOfEncodeIsIdentity opcodeByte opcodeTableIsLegal.1 i []
  have hj := decodeOfEncodeIsIdentity opcodeByte opcodeTableIsLegal.1 j []
  rw [show encodeIn opcodeByte i = encodeIn opcodeByte j from h, hj] at hi
  exact (Except.ok.inj hi).symm

/-- Windows that agree on the bytes of an instruction have the same opcode byte: every length is at least 1. -/
theorem op_eq_of_take_eq {w w' : Window}
    (h : w.bytes.take (instrLength w.op) = w'.bytes.take (instrLength w.op)) : w.op = w'.op := by
  simp only [Window.bytes, instrLength, List.take_succ_cons, List.cons.injEq] at h
  exact h.1

/-- Settles O27: what the two windows decode to has the same bytes, so it is the same instruction (O23 and the injectivity of
encoding); an unassigned opcode byte is refused in both. -/
theorem unusedOperandBytesIgnored : Obligations.UnusedOperandBytesIgnored := by
  intro w w' h
  have hop : w.op = w'.op := op_eq_of_take_eq h
  cases hd : decode w with
  | error e =>
    obtain ⟨hnone, rfl⟩ := decode_error.mp hd
    rw [hop] at hnone ⊢
    exact (decode_error.mpr ⟨hnone, rfl⟩).symm
  | ok i =>
    cases hd' : decode w' with
    | error e =>
      exact absurd ((opcodeByte_of_decode hd).trans hop) ((decode_error.mp hd').1 i.opcode)
    | ok j =>
      have hbytes : encode i = encode j := by
        rw [encodeOfDecodeIsTheBytes w i hd, encodeOfDecodeIsTheBytes w' j hd', h, hop]
      rw [encode_injective hbytes]

/-- Settles O26: each word is evaluated. -/
theorem writtenOutWordsDecode : Obligations.WrittenOutWordsDecode :=
  ⟨rfl, rfl, rfl, rfl, rfl, rfl, rfl, rfl, rfl⟩

end Sys2Proof
end

section
/-! What an instruction can do, said once for all 29 (60_exceptions.md R170, R173; 40_execution_cycle.md R75, R76, R150): it
raises one of its errors, or it has its effect and then advances pc or sets it. The statements about every instruction
follow from this one case split. -/

namespace Sys2Proof.Machine

/-- The effect of an instruction before pc moves: it writes only its registers, its cell and its flags, and the run state
only if it is HLT. -/
structure Effect (i : Instr) (s u : State) : Prop where
  params : u.params = s.params
  pc : u.pc = s.pc
  regs : ∀ r, writesReg i r = false → u.reg r = s.reg r
  mem : u.mem = s.mem ∨
    ∃ a v, storeAddress i s = some a ∧ a < s.params.memSize.toNat ∧ u.mem = s.mem.write a v
  fl : u.fl = s.fl ∨ ∃ x y, u.fl = compareFlags x y
  run : u.run = s.run ∨ i = .hlt ∧ u.run = .halted .hlt

/-- The errors of an instruction, each with the state it is raised in (R166, R168, R169, R171). Only a push has done
something before: it has decremented register 7 (R173). -/
inductive Raises (i : Instr) (s : State) : HaltCause → State → Prop where
  | register {b : Byte} : i.badRegister = some b → Raises i s (.invalidRegister b) s
  | divisor {a b : Byte} {r : RegIdx} : i.WellFormed → i = .div a b ∨ i = .mod a b → b.toNat = r.val → s.reg r = 0#8 →
      Raises i s (.divideByZero (opcodeByte i.opcode)) s
  | access {a : Byte} : i.WellFormed → dataAddress i s = some a.toNat → s.params.memSize.toNat ≤ a.toNat →
      Raises i s (.addressOutOfRange a.toNat) s
  | push : i.WellFormed → i.opcode = .push ∨ i.opcode = .call → dataAddress i s = some s.spDown.toNat →
      s.params.memSize.toNat ≤ s.spDown.toNat →
      Raises i s (.addressOutOfRange s.spDown.toNat) (s.setReg spIdx s.spDown)

/-- How an instruction ends: by an error, by the advance over its own bytes, or, if it is self-advancing, by setting pc. -/
inductive Ends (i : Instr) (s : State) : State → Prop where
  | raises {c : HaltCause} {u : State} : Raises i s c u → Ends i s (raise c u)
  | advances {n : Nat} {u : State} : i.WellFormed → n = i.opcode.format.operandCount + 1 → Effect i s u →
      Ends i s (advance n u)
  | jumps {u : State} (p : Byte) : i.WellFormed → i.opcode.selfAdvancing = true → Effect i s u → Ends i s (u.setPc p)

/-! ### Building effects -/

theorem Effect.refl (i : Instr) (s : State) : Effect i s s :=
  ⟨rfl, rfl, fun _ _ => rfl, .inl rfl, .inl rfl, .inl rfl⟩

theorem Effect.setReg {i : Instr} {s u : State} (h : Effect i s u) {r : RegIdx} (hw : writesReg i r = true) (v : Byte) :
    Effect i s (u.setReg r v) where
  params := h.params
  pc := h.pc
  regs q hq := by
    have hne : q ≠ r := by
      rintro rfl
      simp [hw] at hq
    rw [State.reg_setReg_ne u v hne, h.regs q hq]
  mem := h.mem
  fl := h.fl
  run := h.run

theorem Effect.store {i : Instr} {s u : State} (h : Effect i s u) {a : Nat} (ha : storeAddress i s = some a)
    (hlt : a < s.params.memSize.toNat) (v : Byte) : Effect i s (u.setMem (s.mem.write a v)) where
  params := h.params
  pc := h.pc
  regs := h.regs
  mem := .inr ⟨a, v, ha, hlt, rfl⟩
  fl := h.fl
  run := h.run

theorem Effect.compare (i : Instr) (s : State) (x y : Byte) : Effect i s (s.setFlags (compareFlags x y)) where
  params := rfl
  pc := rfl
  regs _ _ := rfl
  mem := .inl rfl
  fl := .inr ⟨x, y, rfl⟩
  run := .inl rfl

theorem Effect.emit (i : Instr) (s : State) (e : OutEvent) : Effect i s (s.emit e) :=
  ⟨rfl, rfl, fun _ _ => rfl, .inl rfl, .inl rfl, .inl rfl⟩

theorem Effect.halt (s : State) : Effect .hlt s (s.setRun (.halted .hlt)) :=
  ⟨rfl, rfl, fun _ _ => rfl, .inl rfl, .inl rfl, .inr ⟨rfl, rfl⟩⟩

/-! ### The shapes of an instruction -/

theorem registerAddress_of {b : Byte} {r : RegIdx} (h : b.toNat = r.val) (s : State) :
    registerAddress b s = some (s.reg r).toNat := by
  simp [registerAddress, regIndex_ok.mpr h, Except.toOption]

theorem ends_withReg {i : Instr} {a : Byte} {s : State} {k : RegIdx → State} (hi : i.registerOperands = [a])
    (hk : i.WellFormed → ∀ r : RegIdx, a.toNat = r.val → Ends i s (k r)) : Ends i s (withReg a s k) := by
  refine withReg_ind (fun r hr => hk ?_ r hr) fun ha => .raises (.register ?_)
  · have hr7 := r.isLt
    simp only [Instr.WellFormed, hi, List.mem_singleton, forall_eq]
    omega
  · simp [Instr.badRegister, hi, ha]

theorem ends_withRegs {i : Instr} {a b : Byte} {s : State} {k : RegIdx → RegIdx → State}
    (hi : i.registerOperands = [a, b])
    (hk : i.WellFormed → ∀ ra rb : RegIdx, a.toNat = ra.val → b.toNat = rb.val → Ends i s (k ra rb)) :
    Ends i s (withRegs a b s k) := by
  rcases withRegs_cases a b s k with ⟨ra, rb, ha, hb, h⟩ | ⟨ha, h⟩ | ⟨ha, hb, h⟩ <;> rw [h]
  · refine hk ?_ ra rb ha hb
    have hra := ra.isLt
    have hrb := rb.isLt
    simp only [Instr.WellFormed, hi, List.mem_cons, List.not_mem_nil, or_false, forall_eq_or_imp, forall_eq]
    omega
  · exact .raises (.register (by simp [Instr.badRegister, hi, ha]))
  · exact .raises (.register (by simp [Instr.badRegister, hi, ha, hb]))

theorem ends_memRead {i : Instr} {a : Byte} {s : State} {k : Byte → State} (hi : i.WellFormed)
    (ha : dataAddress i s = some a.toNat) (hk : ∀ v, Ends i s (k v)) : Ends i s (orRaise s (memRead s a.toNat) k) :=
  memRead_ind (fun _ => hk _) fun hle => .raises (.access hi ha hle)

theorem ends_memWrite {i : Instr} {a v : Byte} {s : State} {k : State → State} (hi : i.WellFormed)
    (hs : storeAddress i s = some a.toNat) (ha : dataAddress i s = some a.toNat)
    (hk : ∀ u, Effect i s u → Ends i s (k u)) : Ends i s (orRaise s (memWrite s a.toNat v) k) :=
  memWrite_ind (fun hlt => hk _ ((Effect.refl i s).store hs hlt v)) fun hle => .raises (.access hi ha hle)

theorem ends_stackPush {i : Instr} {v : State → Byte} {s : State} {k : State → State} (hi : i.WellFormed)
    (hop : i.opcode = .push ∨ i.opcode = .call) (hw : writesReg i spIdx = true)
    (hs : storeAddress i s = some s.spDown.toNat) (ha : dataAddress i s = some s.spDown.toNat)
    (hk : ∀ u, Effect i s u → Ends i s (k u)) : Ends i s (stackPush v s k) :=
  stackPush_ind (fun hlt => hk _ (((Effect.refl i s).setReg hw _).store hs hlt _)) fun hle =>
    .raises (.push hi hop ha hle)

theorem ends_aluTwo {i : Instr} {a b : Byte} (hi : i.registerOperands = [a, b])
    (hw : ∀ r, writesReg i r = (a.toNat == r.val)) (hn : 3 = i.opcode.format.operandCount + 1)
    (f : Byte → Byte → Byte) (s : State) : Ends i s (aluTwo f a b s) :=
  ends_withRegs hi fun wf ra _ ha _ =>
    .advances wf hn ((Effect.refl i s).setReg ((hw ra).trans (beq_iff_eq.mpr ha)) _)

theorem ends_aluDivide {i : Instr} {a b : Byte} (hdiv : i = .div a b ∨ i = .mod a b)
    (f : Byte → Byte → Byte) (s : State) : Ends i s (aluDivide (opcodeByte i.opcode) f a b s) := by
  have hi : i.registerOperands = [a, b] := by rcases hdiv with rfl | rfl <;> rfl
  have hw (r : RegIdx) : writesReg i r = (a.toNat == r.val) := by rcases hdiv with rfl | rfl <;> rfl
  have hn : 3 = i.opcode.format.operandCount + 1 := by rcases hdiv with rfl | rfl <;> rfl
  refine ends_withRegs hi fun wf ra rb ha hb => ?_
  split
  · next hzero => exact .raises (.divisor wf hdiv hb hzero)
  · exact .advances wf hn ((Effect.refl i s).setReg ((hw ra).trans (beq_iff_eq.mpr ha)) _)

theorem ends_aluOne {i : Instr} {a : Byte} (hi : i.registerOperands = [a])
    (hw : ∀ r, writesReg i r = (a.toNat == r.val)) (hn : 2 = i.opcode.format.operandCount + 1) (f : Byte → Byte)
    (s : State) : Ends i s (aluOne f a s) :=
  ends_withReg hi fun wf r ha => .advances wf hn ((Effect.refl i s).setReg ((hw r).trans (beq_iff_eq.mpr ha)) _)

theorem ends_jumpIf {i : Instr} {a : Byte} (hi : i.registerOperands = [a]) (hself : i.opcode.selfAdvancing = true)
    (hn : 2 = i.opcode.format.operandCount + 1) (taken : Bool) (s : State) : Ends i s (jumpIf taken a s) := by
  refine ends_withReg hi fun wf r _ => ?_
  split
  · exact .jumps _ wf hself (.refl i s)
  · exact .advances wf hn (.refl i s)

/-! ### The instructions -/

/-- Without register operands an instruction is well-formed. -/
theorem wellFormed_of_no_registers {i : Instr} (hi : i.registerOperands = []) : i.WellFormed := by
  simp [Instr.WellFormed, hi]

/-- Every instruction ends in one of the ways `Ends` lists. -/
theorem exec_ends (i : Instr) (s : State) : ∃ t, exec i s = .next t ∧ Ends i s t :=
  match i with
  | .nop => ⟨_, rfl, .advances (wellFormed_of_no_registers rfl) rfl (.refl _ s)⟩
  | .hlt => ⟨_, rfl, .advances (wellFormed_of_no_registers rfl) rfl (.halt s)⟩
  | .ldi reg imm => ⟨_, rfl, ends_withReg rfl fun wf _ hr =>
      .advances wf rfl ((Effect.refl (.ldi reg imm) s).setReg (beq_iff_eq.mpr hr) imm)⟩
  | .ld dst src => ⟨_, rfl, ends_withRegs rfl fun wf _ _ hd hr => ends_memRead wf (registerAddress_of hr s) fun v =>
      .advances wf rfl ((Effect.refl (.ld dst src) s).setReg (beq_iff_eq.mpr hd) v)⟩
  | .st _ _ => ⟨_, rfl, ends_withRegs rfl fun wf _ _ ha _ =>
      ends_memWrite wf (registerAddress_of ha s) (registerAddress_of ha s) fun _ hu => .advances wf rfl hu⟩
  | .push _ => ⟨_, rfl, ends_withReg rfl fun wf _ _ =>
      ends_stackPush wf (.inl rfl) rfl rfl rfl fun _ hu => .advances wf rfl hu⟩
  | .pop _ => ⟨_, rfl, ends_withReg rfl fun wf r hr => ends_memRead wf rfl fun v =>
      .advances wf rfl (((Effect.refl _ s).setReg (r := r) (by simp [writesReg, hr]) v).setReg (by simp [writesReg]) _)⟩
  | .prn _ => ⟨_, rfl, ends_withReg rfl fun wf _ _ => .advances wf rfl (.emit _ s _)⟩
  | .pra _ => ⟨_, rfl, ends_withReg rfl fun wf _ _ => .advances wf rfl (.emit _ s _)⟩
  | .add _ _ => ⟨_, rfl, ends_aluTwo rfl (fun _ => rfl) rfl aluAdd s⟩
  | .sub _ _ => ⟨_, rfl, ends_aluTwo rfl (fun _ => rfl) rfl aluSub s⟩
  | .mul _ _ => ⟨_, rfl, ends_aluTwo rfl (fun _ => rfl) rfl aluMul s⟩
  | .div _ _ => ⟨_, rfl, ends_aluDivide (.inl rfl) aluDiv s⟩
  | .mod _ _ => ⟨_, rfl, ends_aluDivide (.inr rfl) aluMod s⟩
  | .cmp _ _ => ⟨_, rfl, ends_withRegs rfl fun wf _ _ _ _ => .advances wf rfl (.compare _ s _ _)⟩
  | .and _ _ => ⟨_, rfl, ends_aluTwo rfl (fun _ => rfl) rfl aluAnd s⟩
  | .or _ _ => ⟨_, rfl, ends_aluTwo rfl (fun _ => rfl) rfl aluOr s⟩
  | .xor _ _ => ⟨_, rfl, ends_aluTwo rfl (fun _ => rfl) rfl aluXor s⟩
  | .shl _ _ => ⟨_, rfl, ends_aluTwo rfl (fun _ => rfl) rfl aluShl s⟩
  | .shr _ _ => ⟨_, rfl, ends_aluTwo rfl (fun _ => rfl) rfl aluShr s⟩
  | .not _ => ⟨_, rfl, ends_aluOne rfl (fun _ => rfl) rfl aluNot s⟩
  | .inc _ => ⟨_, rfl, ends_aluOne rfl (fun _ => rfl) rfl (fun x => aluAdd x 1#8) s⟩
  | .dec _ => ⟨_, rfl, ends_aluOne rfl (fun _ => rfl) rfl (fun x => aluSub x 1#8) s⟩
  | .addi dst src imm => ⟨_, rfl, ends_withRegs rfl fun wf _ _ hd _ =>
      .advances wf rfl ((Effect.refl (.addi dst src imm) s).setReg (beq_iff_eq.mpr hd) _)⟩
  | .call _ => ⟨_, rfl, ends_withReg rfl fun wf _ _ =>
      ends_stackPush wf (.inr rfl) rfl rfl rfl fun _ hu => .jumps _ wf rfl hu⟩
  | .ret => ⟨_, rfl, ends_memRead (wellFormed_of_no_registers rfl) rfl fun v =>
      .jumps v (wellFormed_of_no_registers rfl) rfl ((Effect.refl _ s).setReg rfl s.spUp)⟩
  | .jmp _ => ⟨_, rfl, ends_withReg rfl fun wf _ _ => .jumps _ wf rfl (.refl _ s)⟩
  | .jeq _ => ⟨_, rfl, ends_jumpIf rfl rfl rfl s.fl.e s⟩
  | .jne _ => ⟨_, rfl, ends_jumpIf rfl rfl rfl (!s.fl.e) s⟩

/-- An execution has one next state. -/
theorem next_unique {i : Instr} {s t u : State} (ht : exec i s = .next t) (hu : exec i s = .next u) : t = u := by
  have htu : Host.Outcome.next t = .next u := ht.symm.trans hu
  injection htu

/-- The next state of an instruction is reached in one of the ways `Ends` lists. -/
theorem ends_of_exec {i : Instr} {s t : State} (h : exec i s = .next t) : Ends i s t := by
  obtain ⟨u, hu, hends⟩ := exec_ends i s
  exact next_unique hu h ▸ hends

/-- An error is raised in the state the instruction began in, or, by a push, after the decrement of register 7 (R173). -/
theorem Raises.state_eq {i : Instr} {s u : State} {c : HaltCause} (h : Raises i s c u) :
    u = s ∨ (i.opcode = .push ∨ i.opcode = .call) ∧ u = s.setReg spIdx s.spDown := by
  cases h with
  | register _ => exact .inl rfl
  | divisor _ _ _ _ => exact .inl rfl
  | access _ _ _ => exact .inl rfl
  | push _ hop _ _ => exact .inr ⟨hop, rfl⟩

/-- From Running no effect leaves an error: the one halt it can be is HLT's (R79, R170). -/
theorem Effect.run_ne_halted {i : Instr} {s u : State} (he : Effect i s u) (hrun : s.run = .running) {c : HaltCause}
    (hc : c ≠ .hlt) : u.run ≠ .halted c := by
  rcases he.run with hkept | ⟨-, hhlt⟩
  · simp [hkept, hrun]
  · simpa [hhlt] using hc.symm

/-- No error is the cause of a normal end (R165). -/
theorem Raises.ne_hlt {i : Instr} {s u : State} {c : HaltCause} (h : Raises i s c u) : c ≠ .hlt := by
  cases h <;> exact HaltCause.noConfusion

/-- An error records a legal value (R166). -/
theorem Raises.legal {i : Instr} {s u : State} {c : HaltCause} (h : Raises i s c u) : c.Legal s.params := by
  cases h with
  | register hb => simpa [HaltCause.Legal] using List.find?_some hb
  | divisor _ hi _ _ => rcases hi with rfl | rfl <;> simp [HaltCause.Legal, Instr.opcode]
  | access _ _ hle => exact ⟨hle, (BitVec.isLt _).le⟩
  | push _ _ _ hle => exact ⟨hle, (BitVec.isLt _).le⟩

end Sys2Proof.Machine
end

section
/-! O28, O31, O33, O12, O13: what every instruction leaves alone, and which errors it raises, from how it ends. -/

namespace Sys2Proof.Machine

/-- Settles O28: an effect writes the instruction's registers only, and an error is raised in a state that differs at most
in register 7, which PUSH and CALL write. -/
theorem instructionsWriteOnlyTheirRegisters : Obligations.InstructionsWriteOnlyTheirRegisters := by
  intro i s t h r hr
  cases ends_of_exec h with
  | raises hraise =>
    rcases hraise.state_eq with rfl | ⟨hop, rfl⟩
    · rfl
    · have hne : r ≠ spIdx := by
        rintro rfl
        cases i <;> simp_all [Instr.opcode, writesReg]
      exact State.reg_setReg_ne s s.spDown hne
  | advances _ _ he => exact (advance_reg _ _ r).trans (he.regs r hr)
  | jumps _ _ _ he => exact he.regs r hr

/-- An error leaves memory as it is, an effect writes at most the instruction's cell (R33). -/
theorem mem_of_exec {i : Instr} {s t : State} (h : exec i s = .next t) :
    t.mem = s.mem ∨ ∃ a v, storeAddress i s = some a ∧ a < s.params.memSize.toNat ∧ t.mem = s.mem.write a v := by
  cases ends_of_exec h with
  | raises hraise => rcases hraise.state_eq with rfl | ⟨-, rfl⟩ <;> exact .inl rfl
  | advances _ _ he => exact (advance_mem _ _).symm ▸ he.mem
  | jumps _ _ _ he => exact he.mem

/-- Settles O31: memory is as before, or written at the one address, which only ST, PUSH and CALL have. -/
theorem instructionsStoreOnlyAtTheirAddress : Obligations.InstructionsStoreOnlyAtTheirAddress := by
  refine fun i s t h => ⟨fun a ha b hb => ?_, fun hnone b => ?_, fun hstore => ?_⟩
  · rcases mem_of_exec h with hmem | ⟨a', v, ha', -, hmem⟩ <;> rw [hmem]
    obtain rfl : a = a' := Option.some.inj (ha.symm.trans ha')
    exact Memory.read_write_ne v hb
  · rcases mem_of_exec h with hmem | ⟨a', v, ha', -, -⟩
    · rw [hmem]
    · simp [hnone] at ha'
  · cases i <;> simp_all [storeAddress, Instr.opcode]

/-- No instruction changes the parameters (R2). -/
theorem params_of_exec {i : Instr} {s t : State} (h : exec i s = .next t) : t.params = s.params := by
  cases ends_of_exec h with
  | raises hraise => rcases hraise.state_eq with rfl | ⟨-, rfl⟩ <;> rfl
  | advances _ _ he => exact (advance_params _ _).trans he.params
  | jumps _ _ _ he => exact he.params

/-- The run state after an instruction: kept, or Halted by one of its errors or by its advance, or by HLT (R79, R170). -/
theorem run_of_exec {i : Instr} {s t : State} (h : exec i s = .next t) :
    t.run = s.run ∨ (∃ c u, Raises i s c u ∧ t.run = .halted c) ∨ (∃ a, t.run = .halted (.addressOutOfRange a)) ∨
      (i = .hlt ∧ t.run = .halted .hlt) := by
  cases ends_of_exec h with
  | raises hraise => exact .inr (.inl ⟨_, _, hraise, rfl⟩)
  | @advances n u _ _ he =>
    rcases advance_cases n u with ⟨-, h⟩ | ⟨-, h⟩ <;> rw [h]
    · exact he.run.imp id fun hhlt => .inr (.inr hhlt)
    · exact .inr (.inr (.inl ⟨_, rfl⟩))
  | jumps _ _ _ he => exact he.run.imp id fun hhlt => .inr (.inr hhlt)

/-- Settles O33: the parameters and the run state, each by how the instruction ends. -/
theorem parametersFixedAndRunKept : Obligations.ParametersFixedAndRunKept := by
  refine fun i s t h => ⟨params_of_exec h, fun hi => ?_⟩
  rcases run_of_exec h with hrun | ⟨c, u, hraise, hrun⟩ | ⟨a, hrun⟩ | ⟨rfl, -⟩
  · exact .inl hrun
  · exact .inr ⟨c, hraise.ne_hlt, hrun⟩
  · exact .inr ⟨_, HaltCause.noConfusion, hrun⟩
  · exact absurd rfl hi

/-- The bad register of an instruction is the first register operand byte above 7 (R57, R75). -/
theorem Instr.badRegister_of {i : Instr} {pre post : List Byte} {b : Byte} (hi : i.registerOperands = pre ++ b :: post)
    (hpre : ∀ c ∈ pre, c.toNat ≤ 7) (hb : 7 < b.toNat) : i.badRegister = some b := by
  rw [Instr.badRegister, List.find?_eq_some_iff_append]
  exact ⟨by simpa using hb, pre, post, hi, by simpa using hpre⟩

/-- An instruction with a bad register is not well-formed. -/
theorem Instr.not_wellFormed_of_badRegister {i : Instr} {b : Byte} (h : i.badRegister = some b) : ¬ i.WellFormed := by
  intro hwf
  have hb : 7 < b.toNat := by simpa using List.find?_some h
  have hle := hwf b (List.mem_of_find?_eq_some h)
  omega

/-- Settles O12: every other end needs an instruction without a bad register. -/
theorem registerByteAboveSevenHalts : Obligations.RegisterByteAboveSevenHalts := by
  intro i s pre post b hi hpre hb
  have hbad : i.badRegister = some b := Instr.badRegister_of hi hpre hb
  have hnwf : ¬ i.WellFormed := Instr.not_wellFormed_of_badRegister hbad
  obtain ⟨t, ht, hends⟩ := exec_ends i s
  rw [ht]
  cases hends with
  | raises hraise =>
    cases hraise with
    | register hb' =>
      obtain rfl := Option.some.inj (hbad.symm.trans hb')
      rfl
    | divisor hwf _ _ _ => exact absurd hwf hnwf
    | access hwf _ _ => exact absurd hwf hnwf
    | push hwf _ _ _ => exact absurd hwf hnwf
  | advances hwf _ _ => exact absurd hwf hnwf
  | jumps _ hwf _ _ => exact absurd hwf hnwf

/-- The shape of DIV and MOD raises DivideByZero when the divisor register holds 0 (R168). -/
theorem aluDivide_zero {a b : Byte} {ra rb : RegIdx} {s : State} (ha : a.toNat = ra.val) (hb : b.toNat = rb.val)
    (hzero : s.reg rb = 0#8) (op : Byte) (f : Byte → Byte → Byte) :
    aluDivide op f a b s = raise (.divideByZero op) s := by
  rw [aluDivide, withRegs_of ha hb, if_pos hzero]

/-- Settles O13: the shape of DIV and MOD raises it, and the errors of the other instructions have other causes. -/
theorem divideByZeroHalts : Obligations.DivideByZeroHalts := by
  refine ⟨fun a b ra rb s ha hb hzero => ?_, fun i s t op hrun h ht => ?_⟩
  · exact ⟨congrArg _ (aluDivide_zero ha hb hzero _ aluMod), congrArg _ (aluDivide_zero ha hb hzero _ aluDiv)⟩
  · rcases run_of_exec h with hkept | ⟨c, u, hraise, hc⟩ | ⟨a, ha⟩ | ⟨-, hhlt⟩
    · simp [ht, hrun] at hkept
    · cases hraise with
      | divisor _ hi _ _ => rcases hi with rfl | rfl <;> simp [Instr.opcode]
      | register _ => simp [ht] at hc
      | access _ _ _ => simp [ht] at hc
      | push _ _ _ _ => simp [ht] at hc
    · simp [ht] at ha
    · simp [ht] at hhlt

end Sys2Proof.Machine
end

section
/-! O20 (10_state.md R18, R24; 60_exceptions.md R166): the invariant. Raising a legal cause keeps it, and so does every effect
an instruction can have; the advance can only fail at MEM_SIZE = 256, since the fetch has read the instruction's bytes. -/

namespace Sys2Proof.Machine

/-- The fetch has read every byte of the instruction, so the instruction ends inside memory (R71, R73). -/
theorem end_le_memSize {s : State} {w : Window} {i : Instr} (hf : fetch s = .ok w) (hd : decode w = .ok i) :
    s.pc.toNat + (i.opcode.format.operandCount + 1) ≤ s.params.memSize.toNat := by
  obtain ⟨h2, -, -, -, h3, -⟩ := fetch_ok.mp hf
  have hcount : i.opcode.format.operandCount = operandCount w.op := by
    rw [← opcodeByte_of_decode hd, operandCount_opcodeByte]
  have hle := operandCount_eq w.op
  rw [hcount]
  by_cases hn : operandCount w.op = 3
  · have := h3 hn
    omega
  · omega

/-- A comparison sets exactly one flag (R18, R126). -/
theorem compareFlags_exactlyOne (x y : Byte) : (compareFlags x y).ExactlyOne := by
  rw [compareFlags]
  rcases Nat.lt_trichotomy x.toNat y.toNat with h | h | h
  · simp [Flags.ExactlyOne, h, h.ne, h.not_gt]
  · simp [Flags.ExactlyOne, h]
  · simp [Flags.ExactlyOne, h, h.ne', h.not_gt]

theorem Memory.Below.write {n a : Nat} {m : Memory} (h : m.Below n) (ha : a < n) (v : Byte) : (m.write a v).Below n :=
  fun c hc => (Memory.mem_write hc).elim (h c) fun hca => hca ▸ ha

/-- Raising a legal cause keeps the invariant. -/
theorem State.Inv.raise {s : State} (h : s.Inv) {c : HaltCause} (hc : c.Legal s.params) :
    (Machine.raise c s).Inv :=
  ⟨h.params, h.canonical, h.inRange, h.flags, hc⟩

/-- The invariant does not speak of the registers. -/
theorem State.Inv.setReg {s : State} (h : s.Inv) (r : RegIdx) (v : Byte) : (s.setReg r v).Inv :=
  ⟨h.params, h.canonical, h.inRange, h.flags, h.cause⟩

/-- The invariant does not speak of the program counter. -/
theorem State.Inv.setPc {s : State} (h : s.Inv) (v : Byte) : (s.setPc v).Inv :=
  ⟨h.params, h.canonical, h.inRange, h.flags, h.cause⟩

/-- An effect keeps the invariant: it stores inside memory, its flags are those of a comparison, its halt is HLT's. -/
theorem State.Inv.effect {i : Instr} {s u : State} (h : s.Inv) (he : Effect i s u) : u.Inv where
  params := he.params ▸ h.params
  canonical := by
    rcases he.mem with hm | ⟨a, v, -, -, hm⟩ <;> rw [hm]
    · exact h.canonical
    · exact Memory.wf_write h.canonical a v
  inRange := by
    rw [he.params]
    rcases he.mem with hm | ⟨a, v, -, ha, hm⟩ <;> rw [hm]
    · exact h.inRange
    · exact h.inRange.write ha v
  flags := by
    rcases he.fl with hf | ⟨x, y, hf⟩ <;> rw [hf]
    · exact h.flags
    · exact (compareFlags_exactlyOne x y).1
  cause := by
    rw [he.params]
    rcases he.run with hr | ⟨-, hr⟩ <;> rw [hr]
    · exact h.cause
    · exact True.intro

/-- An instruction keeps the invariant where its bytes lie in memory. -/
theorem State.Inv.exec {i : Instr} {s t : State} (h : s.Inv)
    (hend : s.pc.toNat + (i.opcode.format.operandCount + 1) ≤ s.params.memSize.toNat) (ht : exec i s = .next t) :
    t.Inv := by
  cases ends_of_exec ht with
  | raises hraise =>
    rcases hraise.state_eq with rfl | ⟨-, rfl⟩
    · exact h.raise hraise.legal
    · exact (h.setReg spIdx s.spDown).raise hraise.legal
  | @advances n u _ hn he =>
    have hmem := memSize_cases s.params.memSize
    rcases advance_cases n u with ⟨-, h'⟩ | ⟨hover, h'⟩ <;> rw [h']
    · exact (h.effect he).setPc _
    · refine (h.effect he).raise ?_
      rw [HaltCause.Legal, he.params]
      rw [he.pc] at hover ⊢
      omega
  | jumps p _ _ he => exact (h.effect he).setPc p

/-- Settles O20: an error of the fetch or the dispatch is legal, and an instruction that has been fetched lies in memory. -/
theorem everyStepKeepsInvariant : Obligations.EveryStepKeepsInvariant := by
  intro s t h hstep
  obtain ⟨-, hcycle⟩ := running_of_step hstep
  rcases cycle_cases s with ⟨c, hf, hc⟩ | ⟨w, op, hf, hd, hc⟩ | ⟨w, i, hf, hd, hc⟩ <;> rw [hc] at hcycle
  · obtain ⟨a, rfl, hle, hle'⟩ := fetch_error hf
    injection hcycle with ht
    exact ht ▸ h.raise ⟨hle, hle'⟩
  · obtain ⟨hnone, hop⟩ := decode_error.mp hd
    injection hop with hop
    injection hcycle with ht
    exact ht ▸ h.raise (lookupIn_none.mpr (hop ▸ hnone))
  · exact h.exec (end_le_memSize hf hd) hcycle

end Sys2Proof.Machine
end

section
/-! O57 (20_memory.md R30, R37): canonical memories are determined by their reads. The first listed cell is the first one that
reads as something else than an unlisted cell. -/

namespace Sys2Proof.Machine

/-- The canonical form of a listed cell and what follows it. -/
theorem Memory.wfFrom_cons {lo k : Nat} {v : Byte} {m : Memory} :
    Memory.wfFrom lo ((k, v) :: m) = true ↔ lo ≤ k ∧ v ≠ Memory.unlisted ∧ m.wfFrom (k + 1) = true := by
  simp [Memory.wfFrom, and_assoc]

/-- The first cell of a canonical memory reads otherwise than unlisted. -/
theorem Memory.read_head (k : Nat) (v : Byte) (m : Memory) : Memory.read ((k, v) :: m) k = v := by
  simp [Memory.read_cons]

/-- Canonical memories that read alike begin at the same address: neither begins before the other. -/
theorem Memory.head_le {lo k k' : Nat} {v v' : Byte} {m m' : Memory} (h : Memory.wfFrom lo ((k, v) :: m) = true)
    (h' : Memory.wfFrom lo ((k', v') :: m') = true)
    (hread : ∀ a, Memory.read ((k, v) :: m) a = Memory.read ((k', v') :: m') a) : k' ≤ k := by
  obtain ⟨-, hv, -⟩ := Memory.wfFrom_cons.mp h
  obtain ⟨-, hv', hm'⟩ := Memory.wfFrom_cons.mp h'
  by_contra hlt
  have hbelow : Memory.read ((k', v') :: m') k = Memory.unlisted :=
    Memory.read_below (Memory.wfFrom_cons.mpr ⟨le_rfl, hv', hm'⟩) (Nat.lt_of_not_le hlt)
  exact hv (((Memory.read_head k v m).symm.trans (hread k)).trans hbelow)

theorem Memory.ext_of_wfFrom {lo : Nat} {m m' : Memory} (h : m.wfFrom lo = true) (h' : m'.wfFrom lo = true)
    (hread : ∀ a, m.read a = m'.read a) : m = m' := by
  induction m generalizing lo m' with
  | nil =>
    cases m' with
    | nil => rfl
    | cons c' m' =>
      obtain ⟨k', v'⟩ := c'
      exact absurd ((Memory.read_head k' v' m').symm.trans (hread k').symm) (Memory.wfFrom_cons.mp h').2.1
  | cons c m ih =>
    obtain ⟨k, v⟩ := c
    cases m' with
    | nil => exact absurd ((Memory.read_head k v m).symm.trans (hread k)) (Memory.wfFrom_cons.mp h).2.1
    | cons c' m' =>
      obtain ⟨k', v'⟩ := c'
      obtain rfl : k = k' :=
        Nat.le_antisymm (Memory.head_le h' h fun a => (hread a).symm) (Memory.head_le h h' hread)
      obtain ⟨-, -, hm⟩ := Memory.wfFrom_cons.mp h
      obtain ⟨-, -, hm'⟩ := Memory.wfFrom_cons.mp h'
      obtain rfl : v = v' := by simpa [Memory.read_head] using hread k
      have htail : m = m' := ih hm hm' fun a => by
        by_cases ha : k = a
        · subst ha
          rw [Memory.read_below hm (Nat.lt_succ_self k), Memory.read_below hm' (Nat.lt_succ_self k)]
        · simpa [Memory.read_cons, ha] using hread a
      rw [htail]

/-- Settles O57: canonical form is canonical form from address 0 on. -/
theorem canonicalMemoryIsDeterminedByReads : Obligations.CanonicalMemoryIsDeterminedByReads :=
  fun _ _ h h' hread => Memory.ext_of_wfFrom (lo := 0) h h' hread

end Sys2Proof.Machine
end

section
/-! O1 to O6, O8, O21 (70_reset_and_hazards.md R190 to R194, 10_state.md R25): reset, load and start, and that a launched run
stays in the invariant. -/

namespace Sys2Proof.Machine

/-! ### What loading writes -/

/-- Loading from `a` on writes the bytes at the addresses from `a` on, and no other. -/
theorem Memory.read_writeAll {m : Memory} (h : m.wf = true) (a : Nat) (bs : List Byte) (x : Nat) :
    (m.writeAll a bs).read x = if x < a then m.read x else bs.getD (x - a) (m.read x) := by
  induction bs generalizing m a with
  | nil => simp [Memory.writeAll]
  | cons b bs ih =>
    rw [Memory.writeAll, ih (Memory.wf_write h a b), Memory.read_write h]
    rcases Nat.lt_trichotomy x a with hx | rfl | hx
    · rw [if_pos (by omega), if_pos hx, if_neg (by omega)]
    · simp
    · obtain ⟨d, rfl⟩ : ∃ d, x = a + 1 + d := ⟨x - (a + 1), by omega⟩
      rw [if_neg (by omega), if_neg (by omega), if_neg (by omega), show a + 1 + d - a = d + 1 by omega]
      simp

/-- Loading below a bound keeps the listed cells below it. -/
theorem Memory.Below.writeAll {n a : Nat} {m : Memory} (h : m.Below n) {bs : List Byte} (hbs : a + bs.length ≤ n) :
    (m.writeAll a bs).Below n := by
  induction bs generalizing m a with
  | nil => exact h
  | cons b bs ih =>
    rw [List.length_cons] at hbs
    exact ih (h.write (by omega) b) (by omega)

/-! ### The host's actions, in Ready and elsewhere -/

theorem hostLoad_of_ready {s : State} {program : List Byte} (hrun : s.run = .ready)
    (hlen : program.length ≤ s.params.memSize.toNat) :
    s.hostLoad program = .next (s.setMem (s.mem.writeAll 0 program)) := by
  simp [State.hostLoad, hrun, hlen]

theorem hostLoad_of_too_long {s : State} {program : List Byte} (hrun : s.run = .ready)
    (hlen : s.params.memSize.toNat < program.length) :
    s.hostLoad program = .refused (.loadOutsideMemory s.params.memSize.toNat) := by
  simp [State.hostLoad, hrun, hlen]

theorem hostLoad_of_not_ready {s : State} (hrun : s.run ≠ .ready) (program : List Byte) :
    s.hostLoad program = .refused .loadNotReady := by
  unfold State.hostLoad
  split
  · contradiction
  · rfl

theorem hostLoadByte_of_not_ready {s : State} (hrun : s.run ≠ .ready) (a : Nat) (v : Byte) :
    s.hostLoadByte a v = .refused .loadNotReady := by
  unfold State.hostLoadByte
  split
  · contradiction
  · rfl

theorem hostStart_of_ready {s : State} (hrun : s.run = .ready) : s.hostStart = .next (s.setRun .running) := by
  simp [State.hostStart, hrun]

theorem hostStart_of_not_ready {s : State} (hrun : s.run ≠ .ready) : s.hostStart = .refused .startNotReady := by
  unfold State.hostStart
  split
  · contradiction
  · rfl

/-- The machine a launch leaves: the reset state with the program in memory, Running (R191). -/
def launched (p : Params) (program : List Byte) : State :=
  ((State.resetOf p).setMem (Memory.writeAll [] 0 program)).setRun .running

theorem launch_of_fits {p : Params} {program : List Byte} (hlen : program.length ≤ p.memSize.toNat) :
    launch p program = .next (launched p program) := by
  rw [launch, hostLoad_of_ready rfl hlen]
  exact hostStart_of_ready rfl

theorem launch_of_too_long {p : Params} {program : List Byte} (hlen : p.memSize.toNat < program.length) :
    launch p program = .refused (.loadOutsideMemory p.memSize.toNat) := by
  rw [launch, hostLoad_of_too_long rfl hlen]
  rfl

/-- The registers after reset: zero but for the stack pointer (R25). -/
theorem resetOf_reg_ne (p : Params) {r : RegIdx} (hr : r ≠ 7) : (State.resetOf p).reg r = 0#8 :=
  match r, hr with
  | 0, _ | 1, _ | 2, _ | 3, _ | 4, _ | 5, _ | 6, _ => rfl
  | 7, hr => absurd rfl hr

/-! ### The obligations -/

/-- Settles O5: in Ready the memory written is that of `Memory.read_writeAll` from 0 on; the refusals are `hostLoad`'s. -/
theorem loadWritesProgramFromZero : Obligations.LoadWritesProgramFromZero := by
  refine fun s program hwf => ⟨fun hrun hlen => ?_, fun hrun hlen t ht => ?_, fun hrun => ?_⟩
  · refine ⟨_, hostLoad_of_ready hrun hlen, fun i => ?_, Memory.wf_writeAll hwf 0 program, fun _ => rfl, rfl, rfl, rfl,
      rfl, rfl⟩
    simpa using Memory.read_writeAll hwf 0 program i
  · rw [hostLoad_of_too_long hrun hlen] at ht
    cases ht
  · exact hostLoad_of_not_ready hrun program

/-- Settles O6: every field is that of the reset state but memory, which the load has written, and the run state. -/
theorem launchStartsProgramAtZero : Obligations.LaunchStartsProgramAtZero := by
  refine fun p program hlen => ⟨_, launch_of_fits hlen, rfl, rfl, fun i => ?_, rfl, fun r hr => ?_, rfl, rfl, rfl⟩
  · simpa [launched] using Memory.read_writeAll (m := []) rfl 0 program i
  · exact resetOf_reg_ne p hr

/-- The invariant holds after reset (R25). -/
theorem resetOf_inv {p : Params} (hp : p.Legal) : (State.resetOf p).Inv where
  params := hp
  canonical := rfl
  inRange _ hc := absurd hc List.not_mem_nil
  flags := rfl
  cause := True.intro

/-- The invariant holds after a launch: the program fits memory (R192). -/
theorem launched_inv {p : Params} {program : List Byte} (hp : p.Legal) (hlen : program.length ≤ p.memSize.toNat) :
    (launched p program).Inv where
  params := hp
  canonical := Memory.wf_writeAll rfl 0 program
  inRange := (resetOf_inv hp).inRange.writeAll ((Nat.zero_add _).symm ▸ hlen)
  flags := rfl
  cause := True.intro

/-- Every state of a run meets the invariant if the first one does. -/
theorem State.Inv.reaches {s t : State} (h : s.Inv) (hreach : Reaches s t) : t.Inv := by
  induction hreach with
  | refl => exact h
  | tail _ hstep ih => exact everyStepKeepsInvariant _ _ ih hstep

/-- Settles O21: the launched machine meets the invariant, and every step keeps it. -/
theorem launchedRunsStayInInvariant : Obligations.LaunchedRunsStayInInvariant := by
  intro p program s t hp hlaunch hreach
  rcases le_or_gt program.length p.memSize.toNat with hlen | hlen
  · rw [launch_of_fits hlen] at hlaunch
    injection hlaunch with hs
    exact (hs ▸ launched_inv hp hlen).reaches hreach
  · rw [launch_of_too_long hlen] at hlaunch
    cases hlaunch

/-- Settles O1: the fields of `State.resetOf`, the eight registers and the eight flag slots one by one. -/
theorem resetValuesOfEveryField : Obligations.ResetValuesOfEveryField := by
  refine ⟨fun p => ⟨fun r hr => resetOf_reg_ne p hr, rfl, rfl, fun i => ?_, rfl, fun _ => rfl, rfl, rfl, rfl⟩, rfl, rfl,
    rfl⟩
  fin_cases i <;> rfl

/-- Settles O2: the default parameters are legal. -/
theorem resetMeetsInvariant : Obligations.ResetMeetsInvariant :=
  ⟨fun _ => resetOf_inv, resetOf_inv (by decide)⟩

/-- Settles O3: the host's reset is the reset state, and in Halted the step is a fault and the host's actions are refused. -/
theorem hostResetAloneLeavesHalted : Obligations.HostResetAloneLeavesHalted := by
  refine ⟨fun s => ⟨fun r hr => resetOf_reg_ne s.params hr, rfl, rfl, rfl, fun _ => rfl, rfl, rfl, rfl⟩,
    fun s t c hc => ?_⟩
  have hready : s.run ≠ .ready := by simp [hc]
  have hrunning : s.run ≠ .running := by simp [hc]
  refine ⟨fun hstep => hrunning (running_of_step hstep).1, ?_, fun bs => ?_, fun a v => ?_⟩
  · simp [hostStart_of_not_ready hready]
  · simp [hostLoad_of_not_ready hready]
  · simp [hostLoadByte_of_not_ready hready]

/-- Settles O4: in Ready start sets the run state only; elsewhere it is refused. -/
theorem startOnlyFromReady : Obligations.StartOnlyFromReady :=
  fun _ => ⟨fun hrun => ⟨_, hostStart_of_ready hrun, rfl, rfl, fun _ => rfl, rfl, rfl, rfl, rfl⟩, hostStart_of_not_ready⟩

/-- Settles O8: the step branches on the run state. -/
theorem stepOutsideRunningIsNamedFault : Obligations.StepOutsideRunningIsNamedFault :=
  fun s => ⟨fun hrun => by simp [step, hrun], fun c hrun => by simp [step, hrun]⟩

end Sys2Proof.Machine
end

section
/-! O9, O10 (40_execution_cycle.md R71 to R75, R81): the fetch against the bytes at pc, and the first address it misses. -/

namespace Sys2Proof.Machine

/-- The two high bits of an opcode byte are its operand count (R51). -/
theorem operandCount_eq_three (op : Byte) : operandCount op = 3 ↔ op >>> 6 = 3#8 := by
  have hlt := op.isLt
  rw [operandCount_eq, ← BitVec.toNat_inj, BitVec.toNat_ushiftRight, Nat.shiftRight_eq_div_pow]
  norm_num
  omega

/-- The third operand slot of an instruction that has no third operand does not matter (R73). -/
theorem decode_third_slot {w : Window} (hn : operandCount w.op ≠ 3) (c : Byte) : decode { w with opc := c } = decode w := by
  have hle := operandCount_eq w.op
  have hlt : instrLength w.op ≤ 3 := by
    rw [instrLength]
    omega
  refine unusedOperandBytesIgnored { w with opc := c } w ?_
  have hthree (x : Byte) : [w.op, w.opa, w.opb, x].take (instrLength w.op) = [w.op, w.opa, w.opb].take (instrLength w.op) :=
    List.take_append_of_le_length (l₁ := [w.op, w.opa, w.opb]) (l₂ := [x]) hlt
  exact (hthree c).trans (hthree w.opc).symm

/-- In Running the step is the execution of what the fetched bytes decode to (R81). -/
theorem step_of_decode {s : State} {w : Window} {i : Instr} (hrun : s.run = .running) (hf : fetch s = .ok w)
    (hd : decode w = .ok i) : step s = exec i s := by
  simp [step_running hrun, cycle, hf, hd]

/-- In Running an error of the fetch is raised (R81). -/
theorem step_of_fetch_error {s : State} {c : HaltCause} (hrun : s.run = .running) (hf : fetch s = .error c) :
    step s = .next (raise c s) := by
  simp [step_running hrun, cycle, hf]

/-- Settles O9: the window fetched is the given one, but for the third slot where pc + 3 is not read. -/
theorem stepRunsTheDecodedInstruction : Obligations.StepRunsTheDecodedInstruction := by
  intro s w i hrun h2 hop hopa hopb hopc hd
  rw [← operandCount_eq_three] at hopc
  by_cases hn : operandCount w.op = 3
  · obtain ⟨h3, hc⟩ := hopc hn
    exact step_of_decode hrun (fetch_ok.mpr ⟨h2, hop, hopa, hopb, fun _ => h3, hc.trans (if_pos hn).symm⟩) hd
  · have hf : fetch s = .ok { w with opc := 0#8 } :=
      fetch_ok.mpr ⟨h2, hop, hopa, hopb, fun h => absurd h hn, (if_neg hn).symm⟩
    exact step_of_decode hrun hf ((decode_third_slot hn 0#8).trans hd)

/-- Settles O10: `fetch_eq` decides the addresses in their order, and the given one is the first that it misses. -/
theorem fetchRaisesFirstMissingAddress : Obligations.FetchRaisesFirstMissingAddress := by
  refine fun s hrun => ⟨fun h => ?_, fun h => ?_, fun h => ?_, fun h hop => ?_⟩ <;>
    refine step_of_fetch_error hrun ?_ <;> rw [fetch_eq]
  · rw [if_pos h]
  · rw [if_neg (by omega), if_pos (by omega)]
  · rw [if_neg (by omega), if_neg (by omega), if_pos (by omega)]
  · rw [if_neg (by omega), if_neg (by omega), if_neg (by omega), if_pos ((operandCount_eq_three _).mpr hop),
      if_pos (by omega)]

end Sys2Proof.Machine
end

section
/-! O16, O18, O19 (60_exceptions.md R170, R173; 70_reset_and_hazards.md R193, R195): how a step ends the run. -/

namespace Sys2Proof.Machine

/-- The output history is only ever appended to (R19). -/
theorem out_of_exec {i : Instr} {s t : State} (h : exec i s = .next t) : s.out <+: t.out := by
  obtain ⟨u, -, d, hu, -, hout, -⟩ := outputAppendedByPrnAndPraOnly.2 i s []
  obtain rfl := next_unique h hu
  exact ⟨d, hout.symm⟩

/-- What stands when a step has ended in a fatal error other than the advance: all but register 7, which a PUSH or a CALL has
decremented (R173). -/
def KeptButStackPointer (s t : State) : Prop :=
  t.out = s.out ∧ t.fl = s.fl ∧ t.mem = s.mem ∧ (∀ r, r ≠ 7 → t.reg r = s.reg r) ∧
    (t.reg 7 = s.reg 7 ∨
      (t.reg 7 = s.reg 7 - 1#8 ∧ ∃ w, fetch s = .ok w ∧ (w.op = opcodeByte .push ∨ w.op = opcodeByte .call)))

theorem keptButStackPointer_raise (c : HaltCause) (s : State) : KeptButStackPointer s (raise c s) :=
  ⟨rfl, rfl, rfl, fun _ _ => rfl, .inl rfl⟩

/-- The error of an instruction leaves pc and the parameters, and the rest but for a push's decrement. -/
theorem Raises.kept {i : Instr} {s u : State} {c : HaltCause} {w : Window} (h : Raises i s c u) (hf : fetch s = .ok w)
    (hd : decode w = .ok i) : u.pc = s.pc ∧ u.params = s.params ∧ KeptButStackPointer s (raise c u) := by
  rcases h.state_eq with rfl | ⟨hop, rfl⟩
  · exact ⟨rfl, rfl, keptButStackPointer_raise c u⟩
  · have hw : w.op = opcodeByte .push ∨ w.op = opcodeByte .call := by
      rw [← opcodeByte_of_decode hd]
      exact hop.imp (congrArg opcodeByte) (congrArg opcodeByte)
    have hsp : (s.setReg spIdx s.spDown).reg 7 = s.reg 7 - 1#8 :=
      (State.reg_setReg_self s spIdx s.spDown).trans s.spDown_eq
    exact ⟨rfl, rfl, rfl, rfl, rfl, fun r hr => State.reg_setReg_ne s s.spDown hr, .inr ⟨hsp, w, hf, hw⟩⟩

/-- An advance over a fetched instruction can fail at 256 only, with MEM_SIZE = 256 (R76, R173). -/
theorem sum_of_failed_advance {s : State} {w : Window} {i : Instr} (hf : fetch s = .ok w) (hd : decode w = .ok i)
    (hover : 255 < s.pc.toNat + (i.opcode.format.operandCount + 1)) :
    s.pc.toNat + (i.opcode.format.operandCount + 1) = 256 ∧ s.params.memSize = .cells256 := by
  have hend := end_le_memSize hf hd
  cases hm : s.params.memSize with
  | cells255 =>
    simp only [hm, MemSize.toNat] at hend
    omega
  | cells256 =>
    simp only [hm, MemSize.toNat] at hend
    exact ⟨by omega, rfl⟩

/-- Settles O16: the errors of the fetch, the dispatch and the instruction leave what `KeptButStackPointer` says, and no effect
is an error; the advance fails at 256 only. -/
theorem fatalErrorKeepsEarlierState : Obligations.FatalErrorKeepsEarlierState := by
  intro s t c hstep hc hne
  obtain ⟨hrun, hcycle⟩ := running_of_step hstep
  rcases cycle_cases s with ⟨c', hf, h⟩ | ⟨w, op, hf, hd, h⟩ | ⟨w, i, hf, hd, h⟩ <;> rw [h] at hcycle
  · injection hcycle with ht
    subst ht
    exact ⟨rfl, List.prefix_rfl, rfl, .inr (keptButStackPointer_raise c' s)⟩
  · injection hcycle with ht
    subst ht
    exact ⟨rfl, List.prefix_rfl, rfl, .inr (keptButStackPointer_raise _ s)⟩
  · have hout : s.out <+: t.out := out_of_exec hcycle
    cases ends_of_exec hcycle with
    | raises hraise =>
      obtain ⟨hpc, hparams, hkept⟩ := hraise.kept hf hd
      exact ⟨hpc, hout, hparams, .inr hkept⟩
    | @advances n u _ hn he =>
      rcases advance_cases n u with ⟨-, ha⟩ | ⟨hover, ha⟩ <;> rw [ha] at hc hout ⊢
      · exact absurd hc (he.run_ne_halted hrun hne)
      · rw [he.pc, hn] at hover hc
        obtain ⟨hsum, hsize⟩ := sum_of_failed_advance hf hd hover
        rw [hsum] at hc
        refine ⟨he.pc, hout, he.params, .inl ⟨(RunState.halted.inj hc).symm, hsize, w, hf, ?_⟩⟩
        rw [← opcodeByte_of_decode hd, instrLength_opcodeByte, hsum]
    | jumps _ _ _ he => exact absurd hc (he.run_ne_halted hrun hne)

/-- Where the fetch has succeeded the advance over an instruction of at most 2 bytes succeeds (R78). -/
theorem advance_of_fetch {s u : State} {w : Window} {n : Nat} (hf : fetch s = .ok w) (hu : u.pc = s.pc) (hn : n ≤ 2) :
    advance n u = u.setPc (trunc8 (u.pc.toNat + n)) := by
  have h2 := (fetch_ok.mp hf).1
  have hmem := memSize_cases s.params.memSize
  exact advance_of_le (by rw [hu]; omega)

/-- Settles O18: the errors of a step have other causes, and no effect but HLT's halts; HLT's own advance succeeds. -/
theorem onlyHltEndsRunNormally : Obligations.OnlyHltEndsRunNormally := by
  intro s t hstep
  obtain ⟨hrun, hcycle⟩ := running_of_step hstep
  rw [State.EndedNormally]
  constructor
  · intro ht
    rcases cycle_cases s with ⟨c, hf, h⟩ | ⟨w, op, hf, hd, h⟩ | ⟨w, i, hf, hd, h⟩ <;> rw [h] at hcycle
    · injection hcycle with hraise
      subst hraise
      exact absurd (RunState.halted.inj ht) (fetch_error_ne_hlt hf)
    · injection hcycle with hraise
      subst hraise
      exact HaltCause.noConfusion (RunState.halted.inj ht)
    · rcases run_of_exec hcycle with hkept | ⟨c, u, hraise, hc⟩ | ⟨a, ha⟩ | ⟨rfl, -⟩
      · simp [ht, hrun] at hkept
      · exact absurd (RunState.halted.inj (hc.symm.trans ht)) hraise.ne_hlt
      · simp [ht] at ha
      · exact ⟨w, hf, hd⟩
  · rintro ⟨w, hf, hd⟩
    rw [step_of_decode hrun hf hd] at hstep
    injection hstep with ht
    have hadv := advance_of_fetch (u := s.setRun (.halted .hlt)) (n := 1) hf rfl (by omega)
    rw [← ht, hadv, State.setPc_run, State.setRun_run]

/-- A self-advancing instruction has at most 2 bytes (R55). -/
theorem length_le_two_of_selfAdvancing {o : Opcode} (h : o.selfAdvancing = true) : o.format.operandCount + 1 ≤ 2 := by
  cases o <;> simp_all [Opcode.selfAdvancing, Opcode.format, Format.operandCount]

/-- An instruction whose operands, data address and divisor are good raises none of its errors (R193). -/
theorem not_raises {i : Instr} {s u : State} {c : HaltCause} (hwf : i.WellFormed)
    (haddr : ∀ a, dataAddress i s = some a → a < s.params.memSize.toNat) (hdiv : divisorNonzero i s) :
    ¬ Raises i s c u := by
  intro h
  cases h with
  | register hb => exact Instr.not_wellFormed_of_badRegister hb hwf
  | divisor _ hi hb hzero => exact hdiv _ _ _ hi hb hzero
  | access _ ha hle => exact Nat.not_lt_of_le hle (haddr _ ha)
  | push _ _ ha hle => exact Nat.not_lt_of_le hle (haddr _ ha)

/-- Settles O19: the instruction raises none of its errors, its advance succeeds, and no effect is a fatal error. -/
theorem softwareObligationsPreventErrors : Obligations.SoftwareObligationsPreventErrors := by
  intro s w i hrun hf hd hwf haddr hdiv hadv
  obtain ⟨t, ht, hends⟩ := exec_ends i s
  refine ⟨t, (step_of_decode hrun hf hd).trans ht, ?_⟩
  rintro ⟨c, hc, hne⟩
  cases hends with
  | raises hraise => exact not_raises hwf haddr hdiv hraise
  | @advances n u _ hn he =>
    have hle : u.pc.toNat + n ≤ 255 := by
      rw [he.pc]
      cases hself : i.opcode.selfAdvancing with
      | false =>
        have hlen := hadv hself
        rwa [← opcodeByte_of_decode hd, instrLength_opcodeByte, ← hn] at hlen
      | true =>
        have hn2 := length_le_two_of_selfAdvancing hself
        have h2 := (fetch_ok.mp hf).1
        have hmem := memSize_cases s.params.memSize
        omega
    rw [advance_of_le hle] at hc
    exact he.run_ne_halted hrun hne hc
  | jumps p _ _ he => exact he.run_ne_halted hrun hne hc

end Sys2Proof.Machine
end

section
/-! O34 to O37, O41 to O49, O51 to O53 (40_execution_cycle.md R78, R79, 41_load_store.md, 43_output.md, 44_alu.md,
45_control_flow.md): the instructions that leave memory alone. Each completes by its check of the operands and its advance;
what is left is the arithmetic of the value written. -/

namespace Sys2Proof.Machine

/-! ### Moving pc, alone or after a register has been written -/

theorem advance_pc_toNat {n : Nat} {s : State} (h : s.pc.toNat + n ≤ 255) :
    (advance n s).pc.toNat = s.pc.toNat + n := by
  rw [advance_of_le h, State.setPc_pc, trunc8_toNat, Nat.mod_eq_of_lt (by omega)]

theorem advance_run {n : Nat} {s : State} (h : s.pc.toNat + n ≤ 255) : (advance n s).run = s.run := by
  rw [advance_of_le h, State.setPc_run]

theorem onlyPc_advance {n : Nat} {s : State} (h : s.pc.toNat + n ≤ 255) : OnlyPc s (advance n s) (s.pc.toNat + n) :=
  ⟨advance_pc_toNat h, advance_reg n s, advance_params n s, advance_fl n s, advance_mem n s, advance_run h,
    advance_out n s⟩

theorem onlyPc_setPc (s : State) (p : Byte) : OnlyPc s (s.setPc p) p.toNat :=
  ⟨rfl, fun _ => rfl, rfl, rfl, rfl, rfl, rfl⟩

/-- Writing a register and then moving pc changes only the two. -/
theorem OnlyPc.onlyRegister {s t : State} {r : RegIdx} {v : Byte} {pc : Nat} (h : OnlyPc (s.setReg r v) t pc) :
    OnlyRegister s t r v.toNat pc where
  value := by rw [h.regs, State.reg_setReg_self]
  regs q hq := by rw [h.regs, State.reg_setReg_ne s v hq]
  pc := h.pc
  params := h.params
  fl := h.fl
  mem := h.mem
  run := h.run
  out := h.out

theorem onlyRegister_advance {n : Nat} {s : State} (h : s.pc.toNat + n ≤ 255) (r : RegIdx) (v : Byte) :
    OnlyRegister s (advance n (s.setReg r v)) r v.toNat (s.pc.toNat + n) :=
  (onlyPc_advance (s := s.setReg r v) h).onlyRegister

/-! ### The shapes of the ALU, and its result functions as numbers -/

theorem onlyRegister_aluTwo {a b : Byte} {ra rb : RegIdx} {s : State} (ha : a.toNat = ra.val) (hb : b.toNat = rb.val)
    (hpc : s.pc.toNat + 3 ≤ 255) (f : Byte → Byte → Byte) :
    OnlyRegister s (aluTwo f a b s) ra (f (s.reg ra) (s.reg rb)).toNat (s.pc.toNat + 3) := by
  rw [aluTwo, withRegs_of ha hb]
  exact onlyRegister_advance hpc ra _

theorem onlyRegister_aluDivide {a b : Byte} {ra rb : RegIdx} {s : State} (ha : a.toNat = ra.val) (hb : b.toNat = rb.val)
    (hne : s.reg rb ≠ 0#8) (hpc : s.pc.toNat + 3 ≤ 255) (op : Byte) (f : Byte → Byte → Byte) :
    OnlyRegister s (aluDivide op f a b s) ra (f (s.reg ra) (s.reg rb)).toNat (s.pc.toNat + 3) := by
  rw [aluDivide, withRegs_of ha hb, if_neg hne]
  exact onlyRegister_advance hpc ra _

theorem onlyRegister_aluOne {a : Byte} {ra : RegIdx} {s : State} (ha : a.toNat = ra.val) (hpc : s.pc.toNat + 2 ≤ 255)
    (f : Byte → Byte) : OnlyRegister s (aluOne f a s) ra (f (s.reg ra)).toNat (s.pc.toNat + 2) := by
  rw [aluOne, withReg_of ha]
  exact onlyRegister_advance hpc ra _

theorem aluAdd_toNat (x y : Byte) : (aluAdd x y).toNat = (x.toNat + y.toNat) % 256 := trunc8_toNat _

/-- The difference modulo 256 (R122). -/
theorem aluSub_toNat (x y : Byte) : (aluSub x y).toNat = (x.toNat + 256 - y.toNat) % 256 := by
  have hx := x.isLt
  have hy := y.isLt
  have h : ((aluSub x y).toNat : Int) = ((x.toNat : Int) - y.toNat) % 256 := trunc8Int_toNat _
  omega

theorem aluMul_toNat (x y : Byte) : (aluMul x y).toNat = x.toNat * y.toNat % 256 := trunc8_toNat _

theorem aluDiv_toNat (x y : Byte) : (aluDiv x y).toNat = x.toNat / y.toNat :=
  (trunc8_toNat _).trans (Nat.mod_eq_of_lt (Nat.lt_of_le_of_lt (Nat.div_le_self _ _) x.isLt))

theorem aluMod_toNat (x y : Byte) : (aluMod x y).toNat = x.toNat % y.toNat :=
  (trunc8_toNat _).trans (Nat.mod_eq_of_lt (Nat.lt_of_le_of_lt (Nat.mod_le _ _) x.isLt))

theorem aluNot_toNat (x : Byte) : (aluNot x).toNat = 255 - x.toNat := by
  have hnot : aluNot x = ~~~x := BitVec.xor_allOnes
  rw [hnot, BitVec.toNat_not]

theorem aluShl_toNat (x y : Byte) : (aluShl x y).toNat = x.toNat * 2 ^ y.toNat % 256 := trunc8_toNat _

theorem aluShr_toNat (x y : Byte) : (aluShr x y).toNat = x.toNat / 2 ^ y.toNat :=
  (trunc8_toNat _).trans (Nat.mod_eq_of_lt (Nat.lt_of_le_of_lt (Nat.div_le_self _ _) x.isLt))

/-- A count of 8 or more shifts every bit out (R131). -/
theorem aluShl_of_eight_le {y : Byte} (hy : 8 ≤ y.toNat) (x : Byte) : aluShl x y = 0#8 := by
  have hdvd : 256 ∣ 2 ^ y.toNat := Nat.pow_dvd_pow 2 hy
  apply BitVec.eq_of_toNat_eq
  rw [aluShl_toNat]
  exact Nat.mod_eq_zero_of_dvd (hdvd.mul_left _)

/-- A count of 8 or more shifts every bit out (R132). -/
theorem aluShr_of_eight_le {y : Byte} (hy : 8 ≤ y.toNat) (x : Byte) : aluShr x y = 0#8 := by
  have hle : 2 ^ 8 ≤ 2 ^ y.toNat := Nat.pow_le_pow_right two_pos hy
  apply BitVec.eq_of_toNat_eq
  rw [aluShr_toNat]
  exact Nat.div_eq_of_lt (Nat.lt_of_lt_of_le x.isLt hle)

/-- What is left in a register is the value written, as a byte. -/
theorem OnlyRegister.reg_eq {s t : State} {d : RegIdx} {v : Byte} {pc : Nat} (h : OnlyRegister s t d v.toNat pc) :
    t.reg d = v :=
  BitVec.eq_of_toNat_eq h.value

/-! ### The stack pointer as a number -/

theorem State.spDown_toNat (s : State) : s.spDown.toNat = ((s.reg 7).toNat + 255) % 256 := by
  rw [State.spDown_eq, BitVec.toNat_sub, Nat.add_comm]
  rfl

theorem State.spUp_toNat (s : State) : s.spUp.toNat = ((s.reg 7).toNat + 1) % 256 := trunc8_toNat _

theorem memRead_of_lt {s : State} {a : Nat} (h : a < s.params.memSize.toNat) : memRead s a = .ok (s.mem.read a) :=
  memRead_ok.mpr ⟨h, rfl⟩

/-! ### The obligations -/

/-- Settles O34: NOP is the advance alone. -/
theorem nopOnlyAdvances : Obligations.NopOnlyAdvances :=
  fun _ hpc => ⟨_, rfl, onlyPc_advance hpc⟩

/-- Settles O35: the advance keeps the cause that HLT has set. -/
theorem hltHalts : Obligations.HltHalts := by
  intro s hpc
  have hadv := onlyPc_advance (s := s.setRun (.halted .hlt)) hpc
  exact ⟨_, rfl, hadv.run, hadv.pc, hadv.regs, hadv.fl, hadv.mem, hadv.out, hadv.params⟩

/-- Settles O36: with a good operand LDI is a register write and the advance. -/
theorem ldiWritesImmediate : Obligations.LdiWritesImmediate := by
  intro reg imm r s hr hpc
  refine ⟨_, rfl, ?_⟩
  rw [withReg_of hr]
  exact onlyRegister_advance hpc r imm

/-- Settles O37: the address is inside memory, so the read succeeds. -/
theorem ldReadsThroughRegister : Obligations.LdReadsThroughRegister := by
  intro dst src d r s hd hr haddr hpc
  refine ⟨_, rfl, ?_⟩
  rw [withRegs_of hd hr, memRead_of_lt haddr, orRaise_ok]
  exact onlyRegister_advance hpc d _

/-- Emitting the event of a register and then moving pc changes only the history and pc. -/
theorem emitReg_result {reg : Byte} {r : RegIdx} {s : State} (hr : reg.toNat = r.val) (hpc : s.pc.toNat + 2 ≤ 255)
    (mk : Byte → OutEvent) : OnlyPc (s.emit (mk (s.reg r))) (emitReg mk reg s) (s.pc.toNat + 2) := by
  rw [emitReg, withReg_of hr]
  exact onlyPc_advance (s := s.emit (mk (s.reg r))) hpc

/-- Settles O41: both are the shape `emitReg`. -/
theorem prnAndPraEmitTheRegister : Obligations.PrnAndPraEmitTheRegister := by
  intro reg r s hr hpc
  have hdec := emitReg_result hr hpc .dec
  have hchr := emitReg_result hr hpc .chr
  exact ⟨⟨_, rfl, hdec.out, hdec.regs, hdec.pc, hdec.fl, hdec.mem, hdec.run, hdec.params⟩,
    _, rfl, hchr.out, hchr.regs, hchr.pc, hchr.fl, hchr.mem, hchr.run, hchr.params⟩

/-- Settles O42: the shape of two registers with the three result functions as numbers. -/
theorem addSubMulModulo256 : Obligations.AddSubMulModulo256 := by
  intro a b ra rb s ha hb hpc
  have hresult := onlyRegister_aluTwo ha hb hpc
  refine ⟨⟨_, rfl, ?_⟩, ⟨_, rfl, ?_⟩, _, rfl, ?_⟩
  · rw [← aluAdd_toNat]
    exact hresult aluAdd
  · rw [← aluSub_toNat]
    exact hresult aluSub
  · rw [← aluMul_toNat]
    exact hresult aluMul

/-- Settles O43: quotient and remainder of the division of natural numbers. -/
theorem divModQuotientRemainder : Obligations.DivModQuotientRemainder := by
  intro a b ra rb s ha hb hne hpc
  have hresult := onlyRegister_aluDivide ha hb hne hpc
  have hpos : 0 < (s.reg rb).toNat := Nat.pos_of_ne_zero fun h0 => hne (BitVec.eq_of_toNat_eq h0)
  refine ⟨(s.reg ra).toNat / (s.reg rb).toNat, (s.reg ra).toNat % (s.reg rb).toNat, (Nat.div_add_mod' _ _).symm,
    Nat.mod_lt _ hpos, ⟨_, rfl, ?_⟩, _, rfl, ?_⟩
  · rw [← aluDiv_toNat]
    exact hresult (opcodeByte .div) aluDiv
  · rw [← aluMod_toNat]
    exact hresult (opcodeByte .mod) aluMod

/-- Settles O44: the flags are `compareFlags`, of which exactly one is set. -/
theorem cmpSetsTheRelation : Obligations.CmpSetsTheRelation := by
  intro a b ra rb s ha hb hpc
  have hadv := onlyPc_advance (s := s.setFlags (compareFlags (s.reg ra) (s.reg rb))) hpc
  refine ⟨_, congrArg Host.Outcome.next (withRegs_of ha hb s _), ?_⟩
  rw [hadv.fl]
  exact ⟨decide_eq_true_iff, decide_eq_true_iff, decide_eq_true_iff, compareFlags_exactlyOne _ _, hadv.regs, hadv.pc,
    hadv.mem, hadv.run, hadv.out, hadv.params⟩

/-- Settles O45: the bits of a byte are those of its number. -/
theorem andOrXorBitwise : Obligations.AndOrXorBitwise := by
  intro a b ra rb s ha hb hpc
  have hresult := onlyRegister_aluTwo ha hb hpc
  refine ⟨⟨_, _, rfl, hresult aluAnd, fun k => ?_⟩, ⟨_, _, rfl, hresult aluOr, fun k => ?_⟩,
    _, _, rfl, hresult aluXor, fun k => ?_⟩
  · rw [aluAnd, BitVec.toNat_and, Nat.testBit_and]
  · rw [aluOr, BitVec.toNat_or, Nat.testBit_or]
  · rw [aluXor, BitVec.toNat_xor, Nat.testBit_xor]

/-- Settles O46: the exclusive or with 0xFF is 255 minus the byte. -/
theorem notComplementsTheCell : Obligations.NotComplementsTheCell := by
  intro a ra s ha hpc
  refine ⟨_, rfl, ?_⟩
  rw [← aluNot_toNat]
  exact onlyRegister_aluOne ha hpc aluNot

/-- Settles O47: the results as numbers, and 0 from a count of 8 on. -/
theorem shiftsByTheWholeCount : Obligations.ShiftsByTheWholeCount := by
  intro a b ra rb s ha hb hpc
  have hshl := onlyRegister_aluTwo ha hb hpc aluShl
  have hshr := onlyRegister_aluTwo ha hb hpc aluShr
  refine ⟨⟨_, rfl, ?_, fun hy => ?_⟩, _, rfl, ?_, fun hy => ?_⟩
  · rw [← aluShl_toNat]
    exact hshl
  · exact hshl.reg_eq.trans (aluShl_of_eight_le hy _)
  · rw [← aluShr_toNat]
    exact hshr
  · exact hshr.reg_eq.trans (aluShr_of_eight_le hy _)

/-- Settles O48: adding and subtracting the byte 1. -/
theorem incDecByOne : Obligations.IncDecByOne := by
  intro reg r s hr hpc
  have hresult := onlyRegister_aluOne hr hpc
  refine ⟨⟨_, rfl, ?_⟩, _, rfl, ?_⟩
  · exact aluAdd_toNat (s.reg r) 1#8 ▸ hresult fun x => aluAdd x 1#8
  · exact aluSub_toNat (s.reg r) 1#8 ▸ hresult fun x => aluSub x 1#8

/-- Settles O49: the shape of ADDI with the sum as a number. -/
theorem addiAddsImmediate : Obligations.AddiAddsImmediate := by
  intro dst src imm d r s hd hr hpc
  refine ⟨_, congrArg Host.Outcome.next (withRegs_of hd hr s _), ?_⟩
  rw [← aluAdd_toNat]
  exact onlyRegister_advance hpc d _

/-- Settles O51: register 7 addresses a cell, so the read succeeds. -/
theorem retPopsIntoPc : Obligations.RetPopsIntoPc := by
  intro s hsp
  refine ⟨_, congrArg (fun r => Host.Outcome.next (orRaise s r _)) (memRead_of_lt hsp), ?_⟩
  rw [← State.spUp_toNat]
  exact (onlyPc_setPc (s.setReg spIdx s.spUp) _).onlyRegister

/-- Settles O52: with a good operand JMP sets pc and nothing else. -/
theorem jmpGoesToRegister : Obligations.JmpGoesToRegister :=
  fun _ _ s hr => ⟨_, congrArg Host.Outcome.next (withReg_of hr s _), onlyPc_setPc s _⟩

/-- A conditional jump moves pc only, to the register's value or on by 2 (R154, R155). -/
theorem onlyPc_jumpIf {reg : Byte} {r : RegIdx} {s : State} (hr : reg.toNat = r.val) (hpc : s.pc.toNat + 2 ≤ 255)
    (taken : Bool) : OnlyPc s (jumpIf taken reg s) (if taken then (s.reg r).toNat else s.pc.toNat + 2) := by
  rw [jumpIf, withReg_of hr]
  cases taken with
  | true => exact onlyPc_setPc s _
  | false => exact onlyPc_advance hpc

/-- Settles O53: both are `jumpIf`, JNE with the flag negated. -/
theorem jeqJneByEqualFlag : Obligations.JeqJneByEqualFlag := by
  intro reg r s hr hpc
  refine ⟨⟨_, rfl, onlyPc_jumpIf hr hpc s.fl.e⟩, _, rfl, ?_⟩
  have hjne := onlyPc_jumpIf hr hpc (!s.fl.e)
  cases he : s.fl.e <;> simpa [he] using hjne

end Sys2Proof.Machine
end

section
/-! O38 to O40, O50, O14 (41_load_store.md R92, 42_stack.md R100 to R102, 45_control_flow.md R151): the instructions that
store or pop, and what a data access outside memory does. -/

namespace Sys2Proof.Machine

/-! ### A store, a push and a read, inside memory and outside -/

theorem memWrite_of_lt {s : State} {a : Nat} (h : a < s.params.memSize.toNat) (v : Byte) :
    memWrite s a v = .ok (s.setMem (s.mem.write a v)) :=
  memWrite_ok.mpr ⟨h, rfl⟩

theorem memRead_of_le {s : State} {a : Nat} (h : s.params.memSize.toNat ≤ a) :
    memRead s a = .error (.addressOutOfRange a) :=
  memRead_error.mpr ⟨h, rfl⟩

theorem memWrite_of_le {s : State} {a : Nat} (h : s.params.memSize.toNat ≤ a) (v : Byte) :
    memWrite s a v = .error (.addressOutOfRange a) :=
  memWrite_error.mpr ⟨h, rfl⟩

/-- The state after a push of `v`: register 7 decremented and `v` in the cell it addresses (R102). -/
def State.pushed (s : State) (v : Byte) : State := (s.setReg spIdx s.spDown).setMem (s.mem.write s.spDown.toNat v)

theorem State.pushed_sp (s : State) (v : Byte) : (s.pushed v).reg 7 = s.spDown := State.reg_setReg_self s spIdx s.spDown

theorem State.pushed_reg (s : State) (v : Byte) {q : RegIdx} (hq : q ≠ 7) : (s.pushed v).reg q = s.reg q :=
  State.reg_setReg_ne s s.spDown hq

/-- The register an operand names, read after the decrement of register 7 (decision D23). -/
theorem State.reg_after_decrement (s : State) (r : RegIdx) :
    (s.setReg spIdx s.spDown).reg r = if r = 7 then s.spDown else s.reg r := State.reg_setReg s spIdx r s.spDown

theorem stackPush_of_lt {s : State} (h : s.spDown.toNat < s.params.memSize.toNat) (v : State → Byte) (k : State → State) :
    stackPush v s k = k (s.pushed (v (s.setReg spIdx s.spDown))) := by
  rcases stackPush_cases v s k with ⟨-, hk⟩ | ⟨hle, -⟩
  · exact hk
  · omega

theorem stackPush_of_le {s : State} (h : s.params.memSize.toNat ≤ s.spDown.toNat) (v : State → Byte) (k : State → State) :
    stackPush v s k = raise (.addressOutOfRange s.spDown.toNat) (s.setReg spIdx s.spDown) := by
  rcases stackPush_cases v s k with ⟨hlt, -⟩ | ⟨-, hk⟩
  · omega
  · exact hk

/-! ### The obligations -/

/-- Settles O38: the store is a write to a canonical memory, read back by `Memory.read_write`. -/
theorem stStoresThroughRegister : Obligations.StStoresThroughRegister := by
  intro addr val a b s hwf ha hb haddr hpc
  refine ⟨_, rfl, ?_⟩
  rw [withRegs_of ha hb, memWrite_of_lt haddr, orRaise_ok]
  have hadv := onlyPc_advance (s := s.setMem (s.mem.write (s.reg a).toNat (s.reg b))) hpc
  refine ⟨?_, fun x hx => ?_, hadv.pc, hadv.regs, hadv.fl, hadv.run, hadv.out, hadv.params⟩ <;>
    rw [hadv.mem, State.setMem_mem, Memory.read_write hwf]
  · rw [if_pos rfl]
  · rw [if_neg hx]

/-- What a push leaves at the new top of the stack and elsewhere (R100). -/
theorem read_pushed {s : State} (hwf : s.mem.wf = true) (v : Byte) (x : Nat) :
    (s.pushed v).mem.read x = if x = s.spDown.toNat then v else s.mem.read x :=
  Memory.read_write hwf _ x v

/-- Settles O39: the push completes, and the byte stored is the register's after the decrement. -/
theorem pushStoresBelowStackPointer : Obligations.PushStoresBelowStackPointer := by
  intro reg r s hwf hr hsp hpc
  rw [← State.spDown_toNat] at hsp ⊢
  refine ⟨_, rfl, ?_⟩
  rw [withReg_of hr, stackPush_of_lt hsp, State.reg_after_decrement]
  have hadv := onlyPc_advance (s := s.pushed (if r = 7 then s.spDown else s.reg r)) hpc
  rw [hadv.mem, hadv.regs 7, State.pushed_sp]
  refine ⟨rfl, ?_, fun x hx => ?_, fun q hq => ?_, hadv.pc, hadv.fl, hadv.run, hadv.out, hadv.params⟩
  · rw [read_pushed hwf, if_pos rfl]
  · rw [read_pushed hwf, if_neg hx]
  · rw [hadv.regs, State.pushed_reg s _ hq]

/-- Settles O40: the register is written first, so that POP R7 increments the popped byte. -/
theorem popLoadsFromStackPointer : Obligations.PopLoadsFromStackPointer := by
  intro reg r s hr hsp hpc
  refine ⟨_, congrArg Host.Outcome.next (withReg_of hr s _), ?_⟩
  have htop : stackTop s = .ok (s.mem.read (s.reg 7).toNat) := memRead_of_lt hsp
  rw [htop, orRaise_ok]
  have hadv := onlyRegister_advance (s := s.setReg r (s.mem.read (s.reg 7).toNat)) hpc spIdx
    (s.setReg r (s.mem.read (s.reg 7).toNat)).spUp
  have hval := hadv.value.trans (State.spUp_toNat _)
  refine ⟨fun hne => ⟨?_, ?_⟩, fun heq => ?_, fun q hq hqr => ?_, hadv.mem, hadv.pc, hadv.fl, hadv.run, hadv.out,
    hadv.params⟩
  · rw [hadv.regs r hne, State.reg_setReg_self]
  · rwa [State.reg_setReg_ne _ _ (Ne.symm hne)] at hval
  · subst heq
    rwa [State.reg_setReg_self] at hval
  · rw [hadv.regs q hq, State.reg_setReg_ne _ _ hqr]

/-- Settles O50: the push completes, and pc goes to the register's value after it. -/
theorem callPushesReturnAddress : Obligations.CallPushesReturnAddress := by
  intro reg r s hwf hr hsp hpc
  rw [← State.spDown_toNat] at hsp ⊢
  refine ⟨_, rfl, ?_⟩
  rw [withReg_of hr, stackPush_of_lt hsp, State.setPc_reg, State.pushed_sp]
  refine ⟨rfl, ?_, fun x hx => ?_, fun q hq => ?_, State.reg_after_decrement s r, rfl, rfl, rfl, rfl⟩
  · rw [State.setPc_mem, read_pushed hwf, if_pos rfl, trunc8_toNat, Nat.mod_eq_of_lt (by omega)]
  · rw [State.setPc_mem, read_pushed hwf, if_neg hx]
  · rw [State.setPc_reg, State.pushed_reg s _ hq]

/-- With register 7 at 0 the decremented stack pointer is 255 (R102). -/
theorem State.spDown_of_zero {s : State} (h : s.reg 7 = 0#8) : s.spDown = 255#8 := by
  apply BitVec.eq_of_toNat_eq
  rw [State.spDown_toNat, h]
  rfl

/-- Settles O14: the access raises in the state it is made in, for a push after the decrement. -/
theorem dataAccessOutsideMemoryHalts : Obligations.DataAccessOutsideMemoryHalts := by
  refine fun a b ra rb s ha hb => ⟨fun h => ?_, fun h => ?_, fun h => ⟨?_, ?_⟩, fun hsize hzero => ?_⟩
  · refine congrArg Host.Outcome.next ((withRegs_of ha hb s _).trans ?_)
    rw [memRead_of_le h]
    rfl
  · refine congrArg Host.Outcome.next ((withRegs_of ha hb s _).trans ?_)
    rw [memWrite_of_le h]
    rfl
  · refine congrArg Host.Outcome.next ((withReg_of ha s _).trans ?_)
    rw [show stackTop s = _ from memRead_of_le h]
    rfl
  · refine congrArg Host.Outcome.next ?_
    rw [show stackTop s = _ from memRead_of_le h]
    rfl
  · have hsp : s.spDown = 255#8 := State.spDown_of_zero hzero
    have hle : s.params.memSize.toNat ≤ s.spDown.toNat := by rw [hsize, hsp]; exact le_rfl
    have hpush (v : State → Byte) (k : State → State) :
        stackPush v s k = (s.setReg 7 255#8).setRun (.halted (.addressOutOfRange 255)) := by
      rw [stackPush_of_le hle, hsp]
      rfl
    exact ⟨congrArg _ ((withReg_of ha s _).trans (hpush _ _)), congrArg _ ((withReg_of ha s _).trans (hpush _ _))⟩

end Sys2Proof.Machine
end

section
/-! O17 and O54 to O56 (40_execution_cycle.md R82, 42_stack.md R103, 45_control_flow.md R157, 20_memory.md R42): what an
instruction that goes on has met, and two instructions in a row. -/

namespace Sys2Proof.Machine

/-! ### A part that leaves the machine Running has met its check -/

theorem withReg_of_running {a : Byte} {s : State} {k : RegIdx → State} (h : (withReg a s k).run = .running) :
    ∃ r : RegIdx, a.toNat = r.val ∧ withReg a s k = k r := by
  rcases withReg_cases a s k with hk | ⟨-, he⟩
  · exact hk
  · simp [he] at h

theorem memRead_of_running {s : State} {a : Nat} {k : Byte → State} (h : (orRaise s (memRead s a) k).run = .running) :
    a < s.params.memSize.toNat := by
  by_contra hge
  simp [memRead_of_le (Nat.le_of_not_lt hge)] at h

theorem memWrite_of_running {s : State} {a : Nat} {v : Byte} {k : State → State}
    (h : (orRaise s (memWrite s a v) k).run = .running) : a < s.params.memSize.toNat := by
  by_contra hge
  simp [memWrite_of_le (Nat.le_of_not_lt hge)] at h

theorem stackPush_of_running {v : State → Byte} {s : State} {k : State → State} (h : (stackPush v s k).run = .running) :
    s.spDown.toNat < s.params.memSize.toNat := by
  by_contra hge
  simp [stackPush_of_le (Nat.le_of_not_lt hge)] at h

theorem advance_of_running {n : Nat} {s : State} (h : (advance n s).run = .running) : s.pc.toNat + n ≤ 255 := by
  rcases advance_cases n s with ⟨hle, -⟩ | ⟨-, he⟩
  · exact hle
  · simp [he] at h

/-! ### O17: the program counter -/

/-- An instruction that is not self-advancing and goes on has advanced over its own bytes (R76). -/
theorem pc_of_advance {i : Instr} {s t : State} (h : exec i s = .next t) (hself : i.opcode.selfAdvancing = false)
    (hrun : t.run = .running) : t.pc.toNat = s.pc.toNat + (i.opcode.format.operandCount + 1) := by
  cases ends_of_exec h with
  | raises _ => simp at hrun
  | advances _ hn he => rw [advance_pc_toNat (advance_of_running hrun), he.pc, hn]
  | jumps _ _ hself' _ => simp [hself] at hself'

/-- A conditional jump that goes on is taken to its register or has moved on by 2 (R154, R155). -/
theorem pc_of_jumpIf {taken : Bool} {reg : Byte} {s : State} (hrun : (jumpIf taken reg s).run = .running) :
    ∃ r : RegIdx, reg.toNat = r.val ∧ (taken = true → (jumpIf taken reg s).pc = s.reg r) ∧
      (taken = false → (jumpIf taken reg s).pc.toNat = s.pc.toNat + 2) := by
  obtain ⟨r, hr, hk⟩ := withReg_of_running hrun
  rw [jumpIf] at hrun ⊢
  rw [hk] at hrun ⊢
  refine ⟨r, hr, fun ht => ?_, fun hf => ?_⟩
  · rw [if_pos ht, State.setPc_pc]
  · rw [hf] at hrun ⊢
    exact advance_pc_toNat (advance_of_running hrun)

/-- Settles O17: the advance for all but the self-advancing instructions, and each of these by what it has met. -/
theorem pcAfterOneCycle : Obligations.PcAfterOneCycle := by
  intro s t w i hstep hf hd hrun
  rw [step_of_decode (running_of_step hstep).1 hf hd] at hstep
  refine ⟨fun hi => ?_, ?_, ?_, ?_, ?_, ?_⟩
  · have hself : i.opcode.selfAdvancing = false :=
      Bool.eq_false_iff.mpr fun h => hi ((Opcode.selfAdvancing_iff _).mp h)
    rw [← opcodeByte_of_decode hd, instrLength_opcodeByte]
    exact pc_of_advance hstep hself hrun
  · rintro b rfl
    injection hstep with ht
    subst ht
    obtain ⟨r, hr, hk⟩ := withReg_of_running hrun
    rw [hk] at hrun ⊢
    rw [stackPush_of_lt (stackPush_of_running hrun)]
    exact ⟨r, hr, rfl⟩
  · rintro rfl
    injection hstep with ht
    subst ht
    rw [show stackTop s = _ from memRead_of_lt (memRead_of_running hrun)]
    rfl
  · rintro b rfl
    injection hstep with ht
    subst ht
    obtain ⟨r, hr, hk⟩ := withReg_of_running hrun
    exact ⟨r, hr, by rw [hk, State.setPc_pc]⟩
  · rintro b rfl
    injection hstep with ht
    subst ht
    exact pc_of_jumpIf hrun
  · rintro b rfl
    injection hstep with ht
    subst ht
    obtain ⟨r, hr, htaken, hnot⟩ := pc_of_jumpIf hrun
    exact ⟨r, hr, fun he => htaken (by rw [he]; rfl), fun he => hnot (by rw [he]; rfl)⟩

/-! ### O54 to O56: two instructions in a row -/

/-- A PUSH that goes on has stored inside memory and advanced. -/
theorem push_of_running {reg : Byte} {r : RegIdx} {s t : State} (hr : reg.toNat = r.val)
    (h : exec (.push reg) s = .next t) (hrun : t.run = .running) :
    s.spDown.toNat < s.params.memSize.toNat ∧ s.pc.toNat + 2 ≤ 255 := by
  injection h with h
  subst h
  rw [withReg_of hr] at hrun
  have hlt := stackPush_of_running hrun
  rw [stackPush_of_lt hlt] at hrun
  have hadv := advance_of_running hrun
  exact ⟨hlt, hadv⟩

/-- A POP that goes on has read inside memory and advanced. -/
theorem pop_of_running {reg : Byte} {r : RegIdx} {s t : State} (hr : reg.toNat = r.val)
    (h : exec (.pop reg) s = .next t) (hrun : t.run = .running) :
    (s.reg 7).toNat < s.params.memSize.toNat ∧ s.pc.toNat + 2 ≤ 255 := by
  injection h with h
  subst h
  rw [withReg_of hr] at hrun
  have hlt : (s.reg 7).toNat < s.params.memSize.toNat := memRead_of_running hrun
  rw [show stackTop s = _ from memRead_of_lt hlt, orRaise_ok] at hrun
  have hadv := advance_of_running hrun
  exact ⟨hlt, hadv⟩

/-- A CALL that goes on has a good register operand and has stored inside memory. -/
theorem call_of_running {reg : Byte} {s t : State} (h : exec (.call reg) s = .next t) (hrun : t.run = .running) :
    ∃ r : RegIdx, reg.toNat = r.val ∧ s.spDown.toNat < s.params.memSize.toNat := by
  injection h with h
  subst h
  obtain ⟨r, hr, hk⟩ := withReg_of_running hrun
  rw [hk] at hrun
  exact ⟨r, hr, stackPush_of_running hrun⟩

/-- An ST that goes on has stored inside memory and advanced. -/
theorem st_of_running {addr val : Byte} {a b : RegIdx} {s t : State} (ha : addr.toNat = a.val) (hb : val.toNat = b.val)
    (h : exec (.st addr val) s = .next t) (hrun : t.run = .running) :
    (s.reg a).toNat < s.params.memSize.toNat ∧ s.pc.toNat + 3 ≤ 255 := by
  injection h with h
  subst h
  rw [withRegs_of ha hb] at hrun
  have hlt := memWrite_of_running hrun
  rw [memWrite_of_lt hlt, orRaise_ok] at hrun
  have hadv := advance_of_running hrun
  exact ⟨hlt, hadv⟩

/-- Decrementing and then incrementing modulo 256 gives the byte back. -/
theorem succ_pred_mod (x : Byte) : ((x.toNat + 255) % 256 + 1) % 256 = x.toNat := by
  have hx := x.isLt
  omega

/-- Settles O54: POP reads at the register 7 that PUSH has left, where PUSH has stored; for register 7 that byte is the
decremented stack pointer, which POP increments. -/
theorem pushThenPopRestores : Obligations.PushThenPopRestores := by
  intro reg r s t u hwf _ hr hpush htrun hpop hurun
  obtain ⟨hsp, hpc⟩ := push_of_running hr hpush htrun
  rw [State.spDown_toNat] at hsp
  obtain ⟨t', ht', hsp7, htop, -, hregs, -⟩ := pushStoresBelowStackPointer reg r s hwf hr hsp hpc
  obtain rfl := next_unique hpush ht'
  obtain ⟨hsp', hpc'⟩ := pop_of_running hr hpop hurun
  obtain ⟨u', hu', hother, hseven, hkept, -⟩ := popLoadsFromStackPointer reg r t hr hsp' hpc'
  obtain rfl := next_unique hpop hu'
  rw [htop] at hother hseven
  have hu7 : u.reg 7 = s.reg 7 := by
    apply BitVec.eq_of_toNat_eq
    rw [← succ_pred_mod (s.reg 7), ← hsp7]
    by_cases h7 : r = 7
    · rw [hseven h7, if_pos h7]
    · exact (hother h7).2
  have hall (q : RegIdx) : u.reg q = s.reg q := by
    by_cases hq7 : q = 7
    · rw [hq7, hu7]
    · by_cases hqr : q = r
      · subst hqr
        rw [(hother hq7).1, if_neg hq7]
      · rw [hkept q hq7 hqr, hregs q hq7]
  exact ⟨hall r, hu7, hall⟩

/-- Settles O55: RET reads the cell in which the CALL has stored pc + 2, and increments the decremented register 7. -/
theorem retReturnsAfterCall : Obligations.RetReturnsAfterCall := by
  intro reg s t u hwf _ hpc hcall htrun hparams hu7 hcell
  obtain ⟨r, hr, hsp⟩ := call_of_running hcall htrun
  rw [State.spDown_toNat] at hsp
  obtain ⟨t', ht', hsp7, htop, -, -, -, -, -, -, htparams⟩ := callPushesReturnAddress reg r s hwf hr hsp hpc
  obtain rfl := next_unique hcall ht'
  have husp : (u.reg 7).toNat < u.params.memSize.toNat := by rwa [hparams, htparams, hu7, hsp7]
  obtain ⟨v, hv, honly⟩ := retPopsIntoPc u husp
  refine ⟨v, hv, ?_, ?_, honly.regs, honly.mem, honly.fl, honly.run, honly.out⟩
  · rw [honly.pc, hu7, hcell, htop]
  · apply BitVec.eq_of_toNat_eq
    rw [honly.value, hu7, hsp7, succ_pred_mod]

/-- Settles O56: the fetch gives the bytes of the memory that the ST has left. -/
theorem storeIsSeenByTheNextFetch : Obligations.StoreIsSeenByTheNextFetch := by
  intro addr val a b s t w hwf _ ha hb hst htrun hf
  obtain ⟨haddr, hpc⟩ := st_of_running ha hb hst htrun
  obtain ⟨t', ht', hstored, -⟩ := stStoresThroughRegister addr val a b s hwf ha hb haddr hpc
  obtain rfl := next_unique hst ht'
  obtain ⟨-, hop, hopa, hopb, -, hopc⟩ := fetch_ok.mp hf
  refine ⟨fun h => ?_, fun h => ?_, fun h => ?_, fun h hn => ?_⟩
  · rw [hop, ← h, hstored]
  · rw [hopa, ← h, hstored]
  · rw [hopb, ← h, hstored]
  · rw [hopc, if_pos ((operandCount_eq_three _).mpr hn), ← h, hstored]

end Sys2Proof.Machine
end

section
/-! O30 (10_state.md R18) and O15 (40_execution_cycle.md R76): one instruction run from two states. The rules relate what a
shape leaves from the one state to what it leaves from the other, for any relation that raising and the continuations
respect; what differs is the two flags no instruction reads, or pc. -/

namespace Sys2Proof.Machine

/-! ### The shapes of an instruction from two states -/

section Shapes

variable {R : State → State → Prop} {s s' : State} (hraise : ∀ c, R (raise c s) (raise c s'))

include hraise

theorem orRaise_rel {α : Type} {r : Except HaltCause α} {k k' : α → State} (hk : ∀ a, R (k a) (k' a)) :
    R (orRaise s r k) (orRaise s' r k') := by
  cases r with
  | ok a => exact hk a
  | error c => exact hraise c

theorem withReg_rel {a : Byte} {k k' : RegIdx → State} (hk : ∀ r, R (k r) (k' r)) :
    R (withReg a s k) (withReg a s' k') :=
  orRaise_rel hraise hk

theorem withRegs_rel {a b : Byte} {k k' : RegIdx → RegIdx → State} (hk : ∀ ra rb, R (k ra rb) (k' ra rb)) :
    R (withRegs a b s k) (withRegs a b s' k') :=
  orRaise_rel hraise fun ra => orRaise_rel hraise (hk ra)

/-- A store of the same byte at the same address into the same memory. -/
theorem memWrite_rel {a : Nat} {v : Byte} {k k' : State → State} (hparams : s'.params = s.params) (hmem : s'.mem = s.mem)
    (hk : ∀ m, R (k (s.setMem m)) (k' (s'.setMem m))) : R (orRaise s (memWrite s a v) k) (orRaise s' (memWrite s' a v) k') := by
  rcases Nat.lt_or_ge a s.params.memSize.toNat with hlt | hge
  · rw [memWrite_of_lt hlt, memWrite_of_lt (hparams ▸ hlt), hmem]
    exact hk _
  · rw [memWrite_of_le hge, memWrite_of_le (hparams ▸ hge)]
    exact hraise _

variable (hregs : ∀ r, s'.reg r = s.reg r)

include hregs

theorem aluTwo_rel {f : Byte → Byte → Byte} {a b : Byte}
    (hk : ∀ r v, R (advance 3 (s.setReg r v)) (advance 3 (s'.setReg r v))) : R (aluTwo f a b s) (aluTwo f a b s') := by
  refine withRegs_rel hraise fun ra rb => ?_
  rw [hregs ra, hregs rb]
  exact hk _ _

theorem aluDivide_rel {op : Byte} {f : Byte → Byte → Byte} {a b : Byte}
    (hk : ∀ r v, R (advance 3 (s.setReg r v)) (advance 3 (s'.setReg r v))) :
    R (aluDivide op f a b s) (aluDivide op f a b s') := by
  refine withRegs_rel hraise fun ra rb => ?_
  rw [hregs ra, hregs rb]
  split
  · exact hraise _
  · exact hk _ _

theorem aluOne_rel {f : Byte → Byte} {a : Byte}
    (hk : ∀ r v, R (advance 2 (s.setReg r v)) (advance 2 (s'.setReg r v))) : R (aluOne f a s) (aluOne f a s') := by
  refine withReg_rel hraise fun r => ?_
  rw [hregs r]
  exact hk _ _

end Shapes

/-! ### O30: the greater and less flags -/

/-- `t'` is `t` but for FL.G and FL.L. -/
def SameButGL (t t' : State) : Prop := ∃ f : Flags, f.e = t.fl.e ∧ t' = t.setFlags f

/-- The advance does not look at the flags (R76). -/
theorem SameButGL.advance {n : Nat} {u u' : State} (h : SameButGL u u') :
    SameButGL (Machine.advance n u) (Machine.advance n u') := by
  obtain ⟨f, hf, rfl⟩ := h
  refine ⟨f, by rw [advance_fl, hf], ?_⟩
  unfold Machine.advance
  rw [State.setFlags_pc]
  split <;> rfl

section OtherFlags

variable {s : State} {f : Flags} (hf : f.e = s.fl.e)

include hf

theorem sameButGL_raise (c : HaltCause) : SameButGL (raise c s) (raise c (s.setFlags f)) := ⟨f, hf, rfl⟩

theorem sameButGL_setReg (n : Nat) (r : RegIdx) (v : Byte) :
    SameButGL (advance n (s.setReg r v)) (advance n ((s.setFlags f).setReg r v)) :=
  SameButGL.advance ⟨f, hf, rfl⟩

theorem sameButGL_aluTwo (g : Byte → Byte → Byte) (a b : Byte) :
    SameButGL (aluTwo g a b s) (aluTwo g a b (s.setFlags f)) :=
  aluTwo_rel (sameButGL_raise hf) (fun _ => rfl) (sameButGL_setReg hf 3)

theorem sameButGL_aluDivide (op : Byte) (g : Byte → Byte → Byte) (a b : Byte) :
    SameButGL (aluDivide op g a b s) (aluDivide op g a b (s.setFlags f)) :=
  aluDivide_rel (sameButGL_raise hf) (fun _ => rfl) (sameButGL_setReg hf 3)

theorem sameButGL_aluOne (g : Byte → Byte) (a : Byte) : SameButGL (aluOne g a s) (aluOne g a (s.setFlags f)) :=
  aluOne_rel (sameButGL_raise hf) (fun _ => rfl) (sameButGL_setReg hf 2)

theorem sameButGL_stackPush {v v' : State → Byte} {k k' : State → State}
    (hv : v' ((s.setFlags f).setReg spIdx s.spDown) = v (s.setReg spIdx s.spDown))
    (hk : ∀ u u', SameButGL u u' → SameButGL (k u) (k' u')) :
    SameButGL (stackPush v s k) (stackPush v' (s.setFlags f) k') := by
  simp only [stackPush, State.setFlags_spDown, hv]
  exact memWrite_rel (s := s.setReg spIdx s.spDown) (fun _ => ⟨f, hf, rfl⟩) rfl rfl fun _ => hk _ _ ⟨f, hf, rfl⟩

theorem sameButGL_jumpIf {taken taken' : Bool} (ht : taken' = taken) (reg : Byte) :
    SameButGL (jumpIf taken reg s) (jumpIf taken' reg (s.setFlags f)) := by
  subst ht
  refine withReg_rel (sameButGL_raise hf) fun r => ?_
  split
  · exact ⟨f, hf, rfl⟩
  · exact SameButGL.advance ⟨f, hf, rfl⟩

/-- With other values of FL.G and FL.L every instruction does the same; CMP overwrites them. -/
theorem exec_sameButGL (i : Instr) :
    ∃ t t', exec i s = .next t ∧ exec i (s.setFlags f) = .next t' ∧ SameButGL t t' :=
  have hs : SameButGL s (s.setFlags f) := ⟨f, hf, rfl⟩
  have hraise := sameButGL_raise hf
  match i with
  | .nop => ⟨_, _, rfl, rfl, hs.advance⟩
  | .hlt => ⟨_, _, rfl, rfl, SameButGL.advance ⟨f, hf, rfl⟩⟩
  | .ldi _ imm => ⟨_, _, rfl, rfl, withReg_rel hraise fun r => sameButGL_setReg hf 3 r imm⟩
  | .ld _ _ => ⟨_, _, rfl, rfl, withRegs_rel hraise fun d _ => orRaise_rel hraise (sameButGL_setReg hf 3 d)⟩
  | .st _ _ => ⟨_, _, rfl, rfl, withRegs_rel hraise fun _ _ =>
      memWrite_rel hraise rfl rfl fun _ => SameButGL.advance ⟨f, hf, rfl⟩⟩
  | .push _ => ⟨_, _, rfl, rfl, withReg_rel hraise fun _ => sameButGL_stackPush hf rfl fun _ _ => SameButGL.advance⟩
  | .pop _ => ⟨_, _, rfl, rfl, withReg_rel hraise fun _ => orRaise_rel hraise fun _ => SameButGL.advance ⟨f, hf, rfl⟩⟩
  | .prn _ => ⟨_, _, rfl, rfl, withReg_rel hraise fun _ => SameButGL.advance ⟨f, hf, rfl⟩⟩
  | .pra _ => ⟨_, _, rfl, rfl, withReg_rel hraise fun _ => SameButGL.advance ⟨f, hf, rfl⟩⟩
  | .add a b => ⟨_, _, rfl, rfl, sameButGL_aluTwo hf aluAdd a b⟩
  | .sub a b => ⟨_, _, rfl, rfl, sameButGL_aluTwo hf aluSub a b⟩
  | .mul a b => ⟨_, _, rfl, rfl, sameButGL_aluTwo hf aluMul a b⟩
  | .div a b => ⟨_, _, rfl, rfl, sameButGL_aluDivide hf _ aluDiv a b⟩
  | .mod a b => ⟨_, _, rfl, rfl, sameButGL_aluDivide hf _ aluMod a b⟩
  | .cmp _ _ => ⟨_, _, rfl, rfl, withRegs_rel hraise fun _ _ => SameButGL.advance ⟨_, rfl, rfl⟩⟩
  | .and a b => ⟨_, _, rfl, rfl, sameButGL_aluTwo hf aluAnd a b⟩
  | .or a b => ⟨_, _, rfl, rfl, sameButGL_aluTwo hf aluOr a b⟩
  | .xor a b => ⟨_, _, rfl, rfl, sameButGL_aluTwo hf aluXor a b⟩
  | .shl a b => ⟨_, _, rfl, rfl, sameButGL_aluTwo hf aluShl a b⟩
  | .shr a b => ⟨_, _, rfl, rfl, sameButGL_aluTwo hf aluShr a b⟩
  | .not a => ⟨_, _, rfl, rfl, sameButGL_aluOne hf aluNot a⟩
  | .inc reg => ⟨_, _, rfl, rfl, sameButGL_aluOne hf (fun x => aluAdd x 1#8) reg⟩
  | .dec reg => ⟨_, _, rfl, rfl, sameButGL_aluOne hf (fun x => aluSub x 1#8) reg⟩
  | .addi _ _ _ => ⟨_, _, rfl, rfl, withRegs_rel hraise fun d _ => sameButGL_setReg hf 4 d _⟩
  | .call _ => ⟨_, _, rfl, rfl, withReg_rel hraise fun _ => sameButGL_stackPush hf rfl fun _ _ ⟨g, hg, hu⟩ =>
      hu ▸ ⟨g, hg, rfl⟩⟩
  | .ret => ⟨_, _, rfl, rfl, orRaise_rel hraise fun _ => ⟨f, hf, rfl⟩⟩
  | .jmp _ => ⟨_, _, rfl, rfl, withReg_rel hraise fun _ => ⟨f, hf, rfl⟩⟩
  | .jeq reg => ⟨_, _, rfl, rfl, sameButGL_jumpIf hf hf reg⟩
  | .jne reg => ⟨_, _, rfl, rfl, sameButGL_jumpIf hf (congrArg (!·) hf) reg⟩

end OtherFlags

/-- Settles O30: the two next states differ in FL.G and FL.L only, and an instruction other than CMP keeps the values it began
with (O29). -/
theorem greaterAndLessFlagsHaveNoReader : Obligations.GreaterAndLessFlagsHaveNoReader := by
  intro i s t g l h
  obtain ⟨t₁, t', ht, ht', hsame⟩ := exec_sameButGL (s := s) (f := { e := s.fl.e, g := g, l := l }) rfl i
  obtain rfl := next_unique h ht
  refine ⟨t', ht', ?_⟩
  have hkept (hi : i.opcode ≠ .cmp) : t'.fl.g = g ∧ t'.fl.l = l := by
    rw [onlyCmpWritesFlags i _ t' ht' hi]
    exact ⟨rfl, rfl⟩
  obtain ⟨f, hf, rfl⟩ := hsame
  exact ⟨rfl, rfl, rfl, rfl, rfl, hf, hkept⟩

/-! ### O15: the advance comes last -/

/-- `t`, begun at pc 0, and `t'`, begun at pc `p`: an error was raised and pc is still 0, or both end in the advance over `n`
bytes, from states that differ in pc only. -/
def AdvancesLast (n : Nat) (p : Byte) (t t' : State) : Prop :=
  t.pc = 0#8 ∨ ∃ u : State, u.pc = 0#8 ∧ t = advance n u ∧ t' = advance n (u.setPc p)

section AdvanceLast

variable (s : State)

theorem advancesLast_raise (n : Nat) (c : HaltCause) :
    AdvancesLast n s.pc (raise c (s.setPc 0#8)) (raise c s) :=
  .inl rfl

theorem advancesLast_setReg (n : Nat) (r : RegIdx) (v : Byte) :
    AdvancesLast n s.pc (advance n ((s.setPc 0#8).setReg r v)) (advance n (s.setReg r v)) :=
  .inr ⟨(s.setPc 0#8).setReg r v, rfl, rfl, rfl⟩

theorem advancesLast_aluTwo (f : Byte → Byte → Byte) (a b : Byte) :
    AdvancesLast 3 s.pc (aluTwo f a b (s.setPc 0#8)) (aluTwo f a b s) :=
  aluTwo_rel (advancesLast_raise s 3) (fun _ => rfl) (advancesLast_setReg s 3)

theorem advancesLast_aluDivide (op : Byte) (f : Byte → Byte → Byte) (a b : Byte) :
    AdvancesLast 3 s.pc (aluDivide op f a b (s.setPc 0#8)) (aluDivide op f a b s) :=
  aluDivide_rel (advancesLast_raise s 3) (fun _ => rfl) (advancesLast_setReg s 3)

theorem advancesLast_aluOne (f : Byte → Byte) (a : Byte) :
    AdvancesLast 2 s.pc (aluOne f a (s.setPc 0#8)) (aluOne f a s) :=
  aluOne_rel (advancesLast_raise s 2) (fun _ => rfl) (advancesLast_setReg s 2)

/-- An instruction that is not self-advancing does the same at pc 0 as elsewhere, up to its advance. -/
theorem exec_advancesLast (i : Instr) (hi : i.opcode.selfAdvancing = false) :
    ∃ t t', exec i (s.setPc 0#8) = .next t ∧ exec i s = .next t' ∧
      AdvancesLast (i.opcode.format.operandCount + 1) s.pc t t' :=
  have hraise (n : Nat) := advancesLast_raise s n
  match i, hi with
  | .nop, _ => ⟨_, _, rfl, rfl, .inr ⟨_, rfl, rfl, rfl⟩⟩
  | .hlt, _ => ⟨_, _, rfl, rfl, .inr ⟨_, rfl, rfl, rfl⟩⟩
  | .ldi _ imm, _ => ⟨_, _, rfl, rfl, withReg_rel (hraise 3) fun r => advancesLast_setReg s 3 r imm⟩
  | .ld _ _, _ => ⟨_, _, rfl, rfl, withRegs_rel (hraise 3) fun d _ =>
      orRaise_rel (hraise 3) (advancesLast_setReg s 3 d)⟩
  | .st _ _, _ => ⟨_, _, rfl, rfl, withRegs_rel (hraise 3) fun _ _ =>
      memWrite_rel (hraise 3) rfl rfl fun _ => .inr ⟨_, rfl, rfl, rfl⟩⟩
  | .push _, _ => ⟨_, _, rfl, rfl, withReg_rel (hraise 2) fun _ =>
      memWrite_rel (s' := s.setReg spIdx s.spDown) (fun _ => .inl rfl) rfl rfl fun _ => .inr ⟨_, rfl, rfl, rfl⟩⟩
  | .pop _, _ => ⟨_, _, rfl, rfl, withReg_rel (hraise 2) fun _ =>
      orRaise_rel (hraise 2) fun _ => .inr ⟨_, rfl, rfl, rfl⟩⟩
  | .prn _, _ => ⟨_, _, rfl, rfl, withReg_rel (hraise 2) fun _ => .inr ⟨_, rfl, rfl, rfl⟩⟩
  | .pra _, _ => ⟨_, _, rfl, rfl, withReg_rel (hraise 2) fun _ => .inr ⟨_, rfl, rfl, rfl⟩⟩
  | .add a b, _ => ⟨_, _, rfl, rfl, advancesLast_aluTwo s aluAdd a b⟩
  | .sub a b, _ => ⟨_, _, rfl, rfl, advancesLast_aluTwo s aluSub a b⟩
  | .mul a b, _ => ⟨_, _, rfl, rfl, advancesLast_aluTwo s aluMul a b⟩
  | .div a b, _ => ⟨_, _, rfl, rfl, advancesLast_aluDivide s _ aluDiv a b⟩
  | .mod a b, _ => ⟨_, _, rfl, rfl, advancesLast_aluDivide s _ aluMod a b⟩
  | .cmp _ _, _ => ⟨_, _, rfl, rfl, withRegs_rel (hraise 3) fun _ _ => .inr ⟨_, rfl, rfl, rfl⟩⟩
  | .and a b, _ => ⟨_, _, rfl, rfl, advancesLast_aluTwo s aluAnd a b⟩
  | .or a b, _ => ⟨_, _, rfl, rfl, advancesLast_aluTwo s aluOr a b⟩
  | .xor a b, _ => ⟨_, _, rfl, rfl, advancesLast_aluTwo s aluXor a b⟩
  | .shl a b, _ => ⟨_, _, rfl, rfl, advancesLast_aluTwo s aluShl a b⟩
  | .shr a b, _ => ⟨_, _, rfl, rfl, advancesLast_aluTwo s aluShr a b⟩
  | .not a, _ => ⟨_, _, rfl, rfl, advancesLast_aluOne s aluNot a⟩
  | .inc reg, _ => ⟨_, _, rfl, rfl, advancesLast_aluOne s (fun x => aluAdd x 1#8) reg⟩
  | .dec reg, _ => ⟨_, _, rfl, rfl, advancesLast_aluOne s (fun x => aluSub x 1#8) reg⟩
  | .addi _ _ _, _ => ⟨_, _, rfl, rfl, withRegs_rel (hraise 4) fun d _ => advancesLast_setReg s 4 d _⟩

end AdvanceLast

/-- Settles O15: at pc 0 the instruction has completed, so both runs end in the advance, from states that differ in pc only;
at the old pc it fails. -/
theorem advancePastTopHaltsAfterEffect : Obligations.AdvancePastTopHaltsAfterEffect := by
  intro i s u hself hover hu hpc
  rw [instrLength_opcodeByte] at hover ⊢
  obtain ⟨t, t', ht, ht', hlast⟩ := exec_advancesLast s i hself
  obtain rfl := next_unique hu ht
  obtain ⟨v, hv, rfl, rfl⟩ := hlast.resolve_left hpc
  rw [ht']
  rcases advance_cases (i.opcode.format.operandCount + 1) v with ⟨-, hok⟩ | ⟨-, hfail⟩
  · rcases advance_cases (i.opcode.format.operandCount + 1) (v.setPc s.pc) with ⟨hle, -⟩ | ⟨-, hfail⟩
    · rw [State.setPc_pc] at hle
      omega
    · rw [hok, hfail]
      rfl
  · rw [hfail, raise_pc] at hpc
    exact absurd hv hpc

end Sys2Proof.Machine
end

section
/-! O58 (43_output.md R113; decisions D16 and D24): the text of an output event. -/

namespace Sys2Proof.Machine

/-- The digits of a byte: 1 to 3 of them, below 10, with the byte as their value and no leading zero (R113). -/
theorem decimalDigits_spec (v : Byte) :
    (∀ d ∈ decimalDigits v, d < 10) ∧ (decimalDigits v).foldl (fun n d => 10 * n + d) 0 = v.toNat ∧
      1 ≤ (decimalDigits v).length ∧ (decimalDigits v).length ≤ 3 ∧
      ((decimalDigits v).head? = some 0 → decimalDigits v = [0]) := by
  have hv := v.isLt
  unfold decimalDigits
  split
  · next h10 => simp [h10]
  · split
    · next h10 h100 => simp; omega
    · next h10 h100 => simp; omega

/-- A code point below 256 is a character (R113). -/
theorem toNat_ofNat_byte (v : Byte) : (Char.ofNat v.toNat).toNat = v.toNat := by
  have hv := v.isLt
  have hvalid : Nat.isValidChar v.toNat := .inl (by omega)
  rw [Char.toNat_ofNat, if_pos hvalid]

/-- Settles O58: Dec(v) is the digits of v and a line break, Chr(v) the character. -/
theorem renderingOfEvents : Obligations.RenderingOfEvents :=
  fun v => ⟨⟨decimalDigits v, rfl, decimalDigits_spec v⟩, _, rfl, toNat_ofNat_byte v⟩

end Sys2Proof.Machine
end
